-- ==== Sys2Proof/Config.lean ====
section
/-! DEFINITION. The configuration of the MWU (00_scope.md R7): what is fixed before reset and never changes
(10_state.md R34, 70_reset_and_hazards.md R125). The OPEN parameters are constants without a body, so that no
proof can see a value of theirs. -/

namespace Sys2Proof

/-- The legal word widths (R7). -/
abbrev LegalWidth (W : Nat) : Prop := W = 8 ∨ W = 16 ∨ W = 32 ∨ W = 64

/-- `MAX_WORDS` (R7, D5): "a positive integer, or `UNBOUNDED`". -/
inductive MaxWords where
  | unbounded
  | bounded (n : Nat) (positive : 0 < n)
deriving DecidableEq, Repr, Inhabited

/-- `MAX_WORDS` as a bound, where there is one. -/
def MaxWords.bound (m : MaxWords) : Option Nat :=
  match m with
  | .unbounded => none
  | .bounded n _ => some n

/-- `HEX_ZERO` (R7, D22): how the host renders the value 0. -/
inductive HexZero where
  | bare       -- "0"
  | prefixed   -- "0x0"
deriving DecidableEq, Repr, Inhabited

/-- `HEX_CASE` (R7, D22): the letter case of the hexadecimal digits a to f. -/
inductive HexCase where
  | lower
  | upper
deriving DecidableEq, Repr, Inhabited

/-- The parameters of R7: "A model takes each one as an argument of its configuration". -/
structure Config where
  /-- `W`, bits per stored word, legal when 8, 16, 32 or 64. -/
  wordBits : Nat
  /-- `NUM_VREG`, legal in 1..16. -/
  numVreg : Nat
  maxWords : MaxWords
  hexZero : HexZero
  hexCase : HexCase
deriving DecidableEq, Repr

/-- The parameters are legal (R7); that MAX_WORDS is positive is in its type. -/
structure Config.Legal (cfg : Config) : Prop where
  width : LegalWidth cfg.wordBits
  someRegister : 1 ≤ cfg.numVreg
  atMostSixteen : cfg.numVreg ≤ 16

/-- `MAX_WORDS` of this hardware: OPEN (R7, D5), so a constant of which nothing is known (log 2). -/
opaque Config.maxWordsOpen : MaxWords

/-- `HEX_ZERO` of this host: OPEN (R7, D22; log 3). -/
opaque Config.hexZeroOpen : HexZero

/-- `HEX_CASE` of this host: OPEN (R7, D22; log 3). -/
opaque Config.hexCaseOpen : HexCase

/-- This hardware (R7, column "value for this hardware"): 16 value registers, the rest OPEN but for the width, which is
"32 by default; any legal value conforms". DESIGN CHOICE (log 1): this unit has the default width. -/
def Config.hw : Config where
  wordBits := 32
  numVreg := 16
  maxWords := Config.maxWordsOpen
  hexZero := Config.hexZeroOpen
  hexCase := Config.hexCaseOpen

end Sys2Proof
end

