-- ==== Sys2Proof/Word.lean ====
section
/-! DEFINITION. The pair a value register holds (00_scope.md R9, R11), and the word and the value of this hardware. What
is computed from them stands in Machine/Operands.lean. -/

namespace Sys2Proof

/-- A BigInt value `(s, w)` (R11): the sign flag and the words, least-significant word first. Any pair may occur,
normalized or not: HWRITE takes raw pairs (R97). -/
structure BigInt (W : Nat) where
  sign : Bool
  words : List (BitVec W)
deriving DecidableEq, Repr

/-- A word of this hardware: `W` bits (R9). -/
abbrev Word := BitVec Config.hw.wordBits

/-- The contents of a value register of this hardware (10_state.md R21). -/
abbrev Value := BigInt Config.hw.wordBits

end Sys2Proof
end

