-- ==== Sys2Proof/Syntax.lean ====
section
/-! DEFINITION. The commands of the MWU (30_encoding.md R54): one constructor per row of the opcode table. -/

namespace Sys2Proof

/-- A 4-bit value register index (30_encoding.md R53). -/
abbrev Reg := Fin 16

/-- A command. The operands stand in the order of the assembly syntax (R60): the destination `d` (rd) where the
format has one, then the sources `a` (rs1) and `b` (rs2). -/
inductive Instr where
  | not (d a : Reg)
  | and (d a b : Reg)
  | or (d a b : Reg)
  | xor (d a b : Reg)
  | shl (d a b : Reg)
  | shr (d a b : Reg)
  | neg (d a : Reg)
  | inc (d a : Reg)
  | dec (d a : Reg)
  | add (d a b : Reg)
  | sub (d a b : Reg)
  | mul (d a b : Reg)
  | bitlen (d a : Reg)
  | eq (a b : Reg)
  | ne (a b : Reg)
  | lt (a b : Reg)
  | le (a b : Reg)
  | gt (a b : Reg)
  | ge (a b : Reg)
deriving DecidableEq, Repr

end Sys2Proof
end

