-- ==== Sys2Proof/WellFormed.lean ====
section
/-! DEFINITION. Which fields a command uses (30_encoding.md R52), and the one check a command's operands can fail:
every register index it uses is below `NUM_VREG` (R58, 60_exceptions.md R107). The 4-bit width of an index is in
its type. -/

namespace Sys2Proof

/-- The three formats (R52). -/
inductive Format where
  | rrr
  | rr
  | cmp
deriving DecidableEq, Repr

/-- The format of each command (R54). -/
def Instr.format : Instr → Format
  | .not _ _ | .neg _ _ | .inc _ _ | .dec _ _ | .bitlen _ _ => .rr
  | .and _ _ _ | .or _ _ _ | .xor _ _ _ | .shl _ _ _ | .shr _ _ _ | .add _ _ _ | .sub _ _ _ | .mul _ _ _ => .rrr
  | .eq _ _ | .ne _ _ | .lt _ _ | .le _ _ | .gt _ _ | .ge _ _ => .cmp

/-- The destination register, where the format has one (R52). -/
def Instr.dest : Instr → Option Reg
  | .not d _ | .neg d _ | .inc d _ | .dec d _ | .bitlen d _ => some d
  | .and d _ _ | .or d _ _ | .xor d _ _ | .shl d _ _ | .shr d _ _ | .add d _ _ | .sub d _ _ | .mul d _ _ => some d
  | .eq _ _ | .ne _ _ | .lt _ _ | .le _ _ | .gt _ _ | .ge _ _ => none

/-- The source registers, rs1 then rs2 (R52). -/
def Instr.sources : Instr → List Reg
  | .not _ a | .neg _ a | .inc _ a | .dec _ a | .bitlen _ a => [a]
  | .and _ a b | .or _ a b | .xor _ a b | .shl _ a b | .shr _ a b | .add _ a b | .sub _ a b | .mul _ a b => [a, b]
  | .eq a b | .ne a b | .lt a b | .le a b | .gt a b | .ge a b => [a, b]

/-- Every register index a command uses, in the order rd, rs1, rs2 (R58). -/
def Instr.registers (i : Instr) : List Reg := i.dest.toList ++ i.sources

/-- Every register index the command uses is below `n`. -/
def Instr.wellFormedAt (n : Nat) (i : Instr) : Bool := i.registers.all fun r => decide (r.val < n)

/-- A command is well formed on this hardware when its register indices are below `NUM_VREG`. -/
def WellFormed (i : Instr) : Bool := i.wellFormedAt Config.hw.numVreg

end Sys2Proof
end

