-- ==== Sys2Proof/Decode.lean ====
section
/-! DEFINITION. Command words (30_encoding.md): the decoder, total on every 32-bit word and rejecting by name, and
the encoder, both written from the field layout R51 and the opcode map R54. There are no bytes here: no transaction
moves a part of a word (20_memory.md R41). -/

namespace Sys2Proof

/-- Why a word is no command (R56, R57). -/
inductive DecodeError where
  | illegalOpcode
  | reservedField
deriving DecidableEq, Repr

/-- `x[lo+n-1:lo]` read as an unsigned number (00_scope.md R9). -/
def bitField (c : BitVec 32) (lo n : Nat) : Nat := c.toNat / 2 ^ lo % 2 ^ n

/-- `opcode`, bits 7:0 (R51). -/
def opcodeField (c : BitVec 32) : Nat := bitField c 0 8

/-- `rd`, bits 11:8 (R51). -/
def rdField (c : BitVec 32) : Reg := Fin.ofNat 16 (bitField c 8 4)

/-- `rs1`, bits 15:12 (R51). -/
def rs1Field (c : BitVec 32) : Reg := Fin.ofNat 16 (bitField c 12 4)

/-- `rs2`, bits 19:16 (R51). -/
def rs2Field (c : BitVec 32) : Reg := Fin.ofNat 16 (bitField c 16 4)

/-- `res`, bits 31:20, which must be 0 (R51). -/
def resField (c : BitVec 32) : Nat := bitField c 20 12

/-- A row of the opcode map: the format, and the command it makes of its used fields (R52). -/
inductive OpcodeRow where
  | rrr (make : Reg → Reg → Reg → Instr)
  | rr (make : Reg → Reg → Instr)
  | cmp (make : Reg → Reg → Instr)

/-- The opcode map (R54). Every other value is illegal (R56). -/
def opcodeRow (op : Nat) : Option OpcodeRow :=
  match op with
  | 0x01 => some (.rr .not)
  | 0x02 => some (.rrr .and)
  | 0x03 => some (.rrr .or)
  | 0x04 => some (.rrr .xor)
  | 0x08 => some (.rrr .shl)
  | 0x09 => some (.rrr .shr)
  | 0x10 => some (.rr .neg)
  | 0x11 => some (.rr .inc)
  | 0x12 => some (.rr .dec)
  | 0x13 => some (.rrr .add)
  | 0x14 => some (.rrr .sub)
  | 0x15 => some (.rrr .mul)
  | 0x16 => some (.rr .bitlen)
  | 0x20 => some (.cmp .eq)
  | 0x21 => some (.cmp .ne)
  | 0x22 => some (.cmp .lt)
  | 0x23 => some (.cmp .le)
  | 0x24 => some (.cmp .gt)
  | 0x25 => some (.cmp .ge)
  | _ => none

/-- The decoder (R55 to R57): the opcode is checked first, then the fields that must be 0 (R58). -/
def decode (c : BitVec 32) : Except DecodeError Instr :=
  match opcodeRow (opcodeField c) with
  | none => .error .illegalOpcode
  | some (.rrr make) =>
    if resField c = 0 then .ok (make (rdField c) (rs1Field c) (rs2Field c)) else .error .reservedField
  | some (.rr make) =>
    if resField c = 0 ∧ rs2Field c = 0 then .ok (make (rdField c) (rs1Field c)) else .error .reservedField
  | some (.cmp make) =>
    if resField c = 0 ∧ rdField c = 0 then .ok (make (rs1Field c) (rs2Field c)) else .error .reservedField

/-- The opcode of each command (R54). -/
def Instr.opcode : Instr → Nat
  | .not _ _ => 0x01
  | .and _ _ _ => 0x02
  | .or _ _ _ => 0x03
  | .xor _ _ _ => 0x04
  | .shl _ _ _ => 0x08
  | .shr _ _ _ => 0x09
  | .neg _ _ => 0x10
  | .inc _ _ => 0x11
  | .dec _ _ => 0x12
  | .add _ _ _ => 0x13
  | .sub _ _ _ => 0x14
  | .mul _ _ _ => 0x15
  | .bitlen _ _ => 0x16
  | .eq _ _ => 0x20
  | .ne _ _ => 0x21
  | .lt _ _ => 0x22
  | .le _ _ => 0x23
  | .gt _ _ => 0x24
  | .ge _ _ => 0x25

/-- A word from its fields (R51), `res` 0. -/
def fieldsWord (op : Nat) (d a b : Reg) : BitVec 32 :=
  BitVec.ofNat 32 (op + d.val * 2 ^ 8 + a.val * 2 ^ 12 + b.val * 2 ^ 16)

/-- The encoder (R52): unused fields are 0. -/
def encode (i : Instr) : BitVec 32 :=
  match i with
  | .not d a | .neg d a | .inc d a | .dec d a | .bitlen d a => fieldsWord i.opcode d a 0
  | .and d a b | .or d a b | .xor d a b | .shl d a b | .shr d a b | .add d a b | .sub d a b | .mul d a b =>
    fieldsWord i.opcode d a b
  | .eq a b | .ne a b | .lt a b | .le a b | .gt a b | .ge a b => fieldsWord i.opcode 0 a b

/-- The mask of each format (R55). -/
def Format.mask : Format → BitVec 32
  | .rrr => 0xFFF000FF#32
  | .rr => 0xFFFF00FF#32
  | .cmp => 0xFFF00FFF#32

/-- The match and mask of every row of the opcode table (R54, R55). -/
def tableRows : List (BitVec 32 × BitVec 32) :=
  [0x01#32, 0x10#32, 0x11#32, 0x12#32, 0x16#32].map (·, Format.rr.mask)
    ++ [0x02#32, 0x03#32, 0x04#32, 0x08#32, 0x09#32, 0x13#32, 0x14#32, 0x15#32].map (·, Format.rrr.mask)
    ++ [0x20#32, 0x21#32, 0x22#32, 0x23#32, 0x24#32, 0x25#32].map (·, Format.cmp.mask)

/-- The command in the `nbits`-bit word `w`; every row of the table has 32 bits (R50). -/
def decodeTableWord (nbits w : Nat) : Option Instr :=
  (decode (BitVec.ofNat 32 (w % 2 ^ nbits))).toOption

end Sys2Proof
end

