-- ==== Sys2Proof/Machine/State.lean ====
section
/-! DEFINITION. The state of the MWU as plain data (10_state.md), for every configuration, the host's transactions
(44_host_interface.md R96), the state of this hardware with the host's port, and the state after reset. -/

namespace Sys2Proof.Machine

/-- The causes STATUS.CAUSE records (60_exceptions.md R107). The reserved codes 6 to 15 are never recorded and are
not represented. -/
inductive Cause where
  | noError
  | illegalOpcode
  | reservedField
  | regRange
  | unwritten
  | capacity
deriving DecidableEq, Repr

/-- The transactions the host drives the MWU with (R96), at word width `W`: "exactly these". A register index names one
of V0 to V15 (R60); DEDUCED (log 15) from "never raised when NUM_VREG = 16" (R107) that none is 16 or more. -/
inductive Transaction (W : Nat) where
  | hwrite (i : Reg) (s : Bool) (w : List (BitVec W))
  | hread (i : Reg)
  | hcmd (c : BitVec 32)
  | hreadStatus
  | hreadValid
  | reset
deriving DecidableEq, Repr

/-- What the host gets back from a transaction (R96). -/
inductive Reply (W : Nat) where
  | completion
  /-- An error, with no data: a HWRITE or HREAD that raises. It carries no cause. -/
  | error
  /-- `(s, k, w_0 … w_(k-1))` of a HREAD (R98). -/
  | value (s : Bool) (k : Nat) (w : List (BitVec W))
  | status (word : BitVec 32)
  | valid (word : BitVec 16)
deriving DecidableEq, Repr

/-- The whole state of an MWU with the parameters `cfg` (10_state.md R32). VALID is read off `v` (`Mwu.validWord`), the
STATUS word off the other three (`Mwu.statusWord`). -/
structure Mwu (cfg : Config) where
  /-- V0 … V(NUM_VREG-1) (R21). `none`: the register "holds no value" (R26), which is its VALID bit being 0 (R25). -/
  v : Vector (Option (BigInt cfg.wordBits)) cfg.numVreg
  /-- STATUS.F (R28). -/
  f : Bool
  /-- STATUS.ERR (R29). -/
  err : Bool
  /-- STATUS.CAUSE (R30). -/
  cause : Cause
deriving DecidableEq, Repr

/-- A transaction with this hardware. -/
abbrev HostTransaction := Transaction Config.hw.wordBits

/-- What the host gets back from this hardware. -/
abbrev HostReply := Reply Config.hw.wordBits

/-- The state of the machine: the MWU of this hardware, and the transaction port with the host on its other side, which
is the model's own (log 5, log 6). -/
structure State extends Mwu Config.hw where
  /-- The transactions the host issues that are not yet performed, in the order of issue (20_memory.md R45). -/
  pending : List HostTransaction
  /-- What the host got back from the latest transaction; `none` before the first. -/
  reply : Option HostReply
deriving DecidableEq, Repr

/-- Reasons to stop with a fault: none. Every error of 60_exceptions.md R107 is recorded in STATUS and the MWU goes
on answering transactions (R110), so it is a next state. Safe: nothing is left out by it. -/
inductive Fault where
deriving DecidableEq, Repr

/-- Reasons to give an instruction no meaning. -/
inductive Refusal where
  /-- Raised by `exec` for a command that has no meaning yet. Safe: nothing follows from it. No command has it now. -/
  | notModelled (mnemonic : String)
deriving DecidableEq, Repr

/-- The MWU after reset (10_state.md R37, 70_reset_and_hazards.md R122): no register holds a value, STATUS is 0. -/
def Mwu.reset (cfg : Config) : Mwu cfg where
  v := Vector.replicate cfg.numVreg none
  f := false
  err := false
  cause := .noError

/-- The state after reset. DESIGN CHOICE (log 5, log 6): no transaction has been issued and none answered. -/
def State.reset : State where
  toMwu := Mwu.reset Config.hw
  pending := []
  reply := none

end Sys2Proof.Machine
end

