-- ==== Sys2Proof/Machine/Operands.lean ====
section
/-! DEFINITION. Operands: the word constants (00_scope.md R8), what a pair means and its canonical form (R12 to R16),
the bits of an integer (R10), and reading a register as an operand (30_encoding.md R53, R58). -/

namespace Sys2Proof

/-- `ALL_ONES = 2^W - 1` (R8). -/
def allOnes (W : Nat) : BitVec W := BitVec.ofNat W (2 ^ W - 1)

/-- `MSB = 2^(W-1)` (R8). -/
def msbWord (W : Nat) : BitVec W := BitVec.ofNat W (2 ^ (W - 1))

/-- `ALL_BUT_MSB = MSB - 1` (R8). -/
def allButMsb (W : Nat) : BitVec W := msbWord W - 1

/-- `NOT_ONE = ALL_ONES - 1` (R8). -/
def notOne (W : Nat) : BitVec W := allOnes W - 1

/-- `ext(s)`, the extension word of a sign (R12). -/
def extWord (W : Nat) (s : Bool) : BitVec W := if s then allOnes W else 0

/-- `eff(s, w, i)`, the effective word at position `i` (R12). -/
def BigInt.eff {W : Nat} (p : BigInt W) (i : Nat) : BitVec W := p.words.getD i (extWord W p.sign)

/-- The sum of `w_i · 2^(W·i)`, the first term of R13. -/
def wordsSum {W : Nat} : List (BitVec W) → Nat
  | [] => 0
  | w :: ws => w.toNat + 2 ^ W * wordsSum ws

/-- `val(s, w)`, the logical value of a pair (R13). -/
def BigInt.val {W : Nat} (p : BigInt W) : Int :=
  (wordsSum p.words : Int) - if p.sign then ((2 ^ (W * p.words.length) : Nat) : Int) else 0

/-- `normalize` (R14): remove the last word while it is the extension word. -/
def BigInt.normalize {W : Nat} (p : BigInt W) : BigInt W :=
  { p with words := (p.words.reverse.dropWhile fun w => decide (w = extWord W p.sign)).reverse }

/-- A pair is normalized (R14). -/
abbrev BigInt.Normalized {W : Nat} (p : BigInt W) : Prop := p.normalize = p

/-- The number of bits of a natural number: 0 for 0, else `floor(log2 m) + 1`. -/
def bitCount (m : Nat) : Nat := if m = 0 then 0 else m.log2 + 1

/-- The least `k ≥ 0` with `-2^(W·k) ≤ v < 2^(W·k)` (R14): the bits of `v`, or of `NOT v` when `v` is negative,
in whole words. -/
def wordCount (W : Nat) (v : Int) : Nat :=
  (bitCount (if v < 0 then (-v - 1).toNat else v.toNat) + (W - 1)) / W

/-- `canon(v)` (R14): `w_i = floor(v / 2^(W·i)) mod 2^W` for `i < k`. -/
def canon (W : Nat) (v : Int) : BigInt W where
  sign := decide (v < 0)
  words := (List.range (wordCount W v)).map fun i => BitVec.ofInt W (v / ((2 ^ (W * i) : Nat) : Int))

/-- `bit_j(v) = floor(v / 2^j) mod 2` (R10). -/
def bitOf (v : Int) (j : Nat) : Int := v / ((2 ^ j : Nat) : Int) % 2

namespace Machine

/-- Register `i` as an operand: what it holds, `none` where its VALID bit is 0 (R26) or there is no such register. -/
def Mwu.reg {cfg : Config} (u : Mwu cfg) (i : Nat) : Option (BigInt cfg.wordBits) := (u.v[i]?).join

/-- Every register index is below `NUM_VREG` (30_encoding.md R58). -/
def indicesInRange (cfg : Config) (rs : List Reg) : Bool := rs.all fun r => decide (r.val < cfg.numVreg)

end Machine

end Sys2Proof
end

