-- ==== Sys2Proof/Machine/Flags.lean ====
section
/-! DEFINITION. The flag F and the words the host reads: STATUS (10_state.md R27) and VALID (R25). -/

namespace Sys2Proof.Machine

/-- The code of a cause (60_exceptions.md R107). -/
def Cause.code : Cause → Nat
  | .noError => 0
  | .illegalOpcode => 1
  | .reservedField => 2
  | .regRange => 3
  | .unwritten => 4
  | .capacity => 5

variable {cfg : Config}

/-- `F <- t` (00_scope.md R17, 10_state.md R28). -/
def Mwu.setF (u : Mwu cfg) (t : Bool) : Mwu cfg := { u with f := t }

/-- The STATUS word (R27): F in bit 0, ERR in bit 1, CAUSE in bits 7:4, every reserved bit 0. -/
def Mwu.statusWord (u : Mwu cfg) : BitVec 32 :=
  BitVec.ofNat 32 (u.f.toNat + u.err.toNat * 2 + u.cause.code * 2 ^ 4)

/-- The VALID word (R25): bit i is 1 exactly when V[i] holds a value; there is none from NUM_VREG up, so those bits read
as 0. -/
def Mwu.validWord (u : Mwu cfg) : BitVec 16 := BitVec.ofFnLE fun i : Fin 16 => (u.reg i).isSome

end Sys2Proof.Machine
end

