-- ==== Sys2Proof/Machine/Ops.lean ====
section
/-! DEFINITION. The shared operations, for every configuration: writing a register, raising an error and the reset that
alone clears it, the capacity test, and the execution of one command of each format (30_encoding.md R58). Every
command's meaning is one of the last three over its value law, done to the MWU behind the port. -/

namespace Sys2Proof.Machine

variable {cfg : Config}

/-- `V[i] <- p`, which sets VALID[i] (00_scope.md R17). -/
def Mwu.writeReg (u : Mwu cfg) (i : Nat) (p : BigInt cfg.wordBits) : Mwu cfg :=
  { u with v := u.v.setIfInBounds i (some p) }

/-- `raise Error(code)` (60_exceptions.md R108): the error is recorded only if it is the first since reset (R109);
no register, VALID bit or F is written. This is all of "taking an exception" on the MWU: nothing is saved and
control goes nowhere (R114). -/
def Mwu.raise (u : Mwu cfg) (code : Cause) : Mwu cfg :=
  if u.err then u else { u with err := true, cause := code }

/-- `RESET()` (70_reset_and_hazards.md R122), the only way out of an error (60_exceptions.md R113). -/
def Mwu.resetUnit (_ : Mwu cfg) : Mwu cfg := Mwu.reset cfg

/-- A value of `k` words is within the capacity: `MAX_WORDS = UNBOUNDED` or `k ≤ MAX_WORDS` (30_encoding.md R58).
One word always is, since MAX_WORDS is positive (00_scope.md R7); saying so first lets a run be evaluated though
MAX_WORDS is open. -/
def capacityAllows (cfg : Config) (k : Nat) : Bool :=
  decide (k ≤ 1) ||
    match cfg.maxWords.bound with
    | none => true
    | some n => decide (k ≤ n)

/-- The pair `p` is within the capacity. -/
def fits (cfg : Config) (p : BigInt cfg.wordBits) : Bool := capacityAllows cfg p.words.length

/-- The last lines of `execute` for a value result (R58): CAPACITY, or the write. -/
def Mwu.writeResult (u : Mwu cfg) (d : Nat) (p : BigInt cfg.wordBits) : Mwu cfg :=
  if fits cfg p then u.writeReg d p else u.raise .capacity

/-- `execute` of an RRR command whose value law is `law` (R58): ERR, REG_RANGE, UNWRITTEN, CAPACITY, then the write;
both sources are read before it (R59). -/
def commandRRR (law : Int → Int → Int) (d a b : Reg) (u : Mwu cfg) : Mwu cfg :=
  if u.err then u
  else if indicesInRange cfg [d, a, b] then
    match u.reg a, u.reg b with
    | some x, some y => u.writeResult d (canon cfg.wordBits (law x.val y.val))
    | _, _ => u.raise .unwritten
  else u.raise .regRange

/-- `execute` of an RR command whose value law is `law` (R58). -/
def commandRR (law : Int → Int) (d a : Reg) (u : Mwu cfg) : Mwu cfg :=
  if u.err then u
  else if indicesInRange cfg [d, a] then
    match u.reg a with
    | some x => u.writeResult d (canon cfg.wordBits (law x.val))
    | none => u.raise .unwritten
  else u.raise .regRange

/-- `execute` of a CMP command that tests `test` (R58): it writes F and no register, and no capacity is tested
(43_compare.md, D17). -/
def commandCMP (test : Int → Int → Bool) (a b : Reg) (u : Mwu cfg) : Mwu cfg :=
  if u.err then u
  else if indicesInRange cfg [a, b] then
    match u.reg a, u.reg b with
    | some x, some y => u.setF (test x.val y.val)
    | _, _ => u.raise .unwritten
  else u.raise .regRange

/-- `g` done to the MWU, the port untouched. -/
def State.onUnit (s : State) (g : Mwu Config.hw → Mwu Config.hw) : State := { s with toMwu := g s.toMwu }

/-- What the host gets back. -/
def State.answer (s : State) (r : HostReply) : State := { s with reply := some r }

end Sys2Proof.Machine
end

