-- ==== Sys2Proof/Machine/Arithmetic.lean ====
section
/-! DEFINITION. The arithmetic engine (42_arithmetic.md): NEG, INC, DEC, ADD, SUB, MUL, BITLEN over ℤ, with no width
(R84). -/

namespace Sys2Proof.Machine

/-- The value law of NEG (R77). -/
def negLaw (x : Int) : Int := -x

/-- The value law of INC (R78). -/
def incLaw (x : Int) : Int := x + 1

/-- The value law of DEC (R79). -/
def decLaw (x : Int) : Int := x - 1

/-- The value law of ADD (R80). -/
def addLaw (x y : Int) : Int := x + y

/-- The value law of SUB (R81). -/
def subLaw (x y : Int) : Int := x - y

/-- The value law of MUL (R82). -/
def mulLaw (x y : Int) : Int := x * y

/-- The value law of BITLEN (R83): 0 for `v ≤ 0`, else `floor(log2 v) + 1`. -/
def bitlenLaw (x : Int) : Int := if x ≤ 0 then 0 else (bitCount x.toNat : Int)

/-- NEG (R77). -/
def execNeg (d a : Reg) (s : State) : Host.Outcome State Fault Refusal :=
  .next (s.onUnit (commandRR negLaw d a))

/-- INC (R78). -/
def execInc (d a : Reg) (s : State) : Host.Outcome State Fault Refusal :=
  .next (s.onUnit (commandRR incLaw d a))

/-- DEC (R79). -/
def execDec (d a : Reg) (s : State) : Host.Outcome State Fault Refusal :=
  .next (s.onUnit (commandRR decLaw d a))

/-- ADD (R80). -/
def execAdd (d a b : Reg) (s : State) : Host.Outcome State Fault Refusal :=
  .next (s.onUnit (commandRRR addLaw d a b))

/-- SUB (R81). -/
def execSub (d a b : Reg) (s : State) : Host.Outcome State Fault Refusal :=
  .next (s.onUnit (commandRRR subLaw d a b))

/-- MUL (R82). -/
def execMul (d a b : Reg) (s : State) : Host.Outcome State Fault Refusal :=
  .next (s.onUnit (commandRRR mulLaw d a b))

/-- BITLEN (R83). -/
def execBitlen (d a : Reg) (s : State) : Host.Outcome State Fault Refusal :=
  .next (s.onUnit (commandRR bitlenLaw d a))

end Sys2Proof.Machine
end

