-- ==== Sys2Proof/Machine/Bitwise.lean ====
section
/-! DEFINITION. The bitwise engine (40_bitwise.md): NOT, AND, OR, XOR on the infinite two's-complement expansions
(00_scope.md R10). -/

namespace Sys2Proof.Machine

/-- The value law of NOT (R61): `NOT v = -v - 1` (R10). -/
def notLaw (x : Int) : Int := -x - 1

/-- `x AND NOT y` on natural numbers. -/
def natAndNot (x y : Nat) : Nat := x ^^^ (x &&& y)

/-- `a AND b` on integers (R62, R10): a negative number is the complement of the natural number `-v - 1`. -/
def andLaw : Int → Int → Int
  | .ofNat a, .ofNat b => .ofNat (a &&& b)
  | .ofNat a, .negSucc b => .ofNat (natAndNot a b)
  | .negSucc a, .ofNat b => .ofNat (natAndNot b a)
  | .negSucc a, .negSucc b => .negSucc (a ||| b)

/-- `a OR b` on integers (R63, R10). -/
def orLaw : Int → Int → Int
  | .ofNat a, .ofNat b => .ofNat (a ||| b)
  | .ofNat a, .negSucc b => .negSucc (natAndNot b a)
  | .negSucc a, .ofNat b => .negSucc (natAndNot a b)
  | .negSucc a, .negSucc b => .negSucc (a &&& b)

/-- `a XOR b` on integers (R64, R10). -/
def xorLaw : Int → Int → Int
  | .ofNat a, .ofNat b => .ofNat (a ^^^ b)
  | .ofNat a, .negSucc b => .negSucc (a ^^^ b)
  | .negSucc a, .ofNat b => .negSucc (a ^^^ b)
  | .negSucc a, .negSucc b => .ofNat (a ^^^ b)

/-- NOT (R61). -/
def execNot (d a : Reg) (s : State) : Host.Outcome State Fault Refusal :=
  .next (s.onUnit (commandRR notLaw d a))

/-- AND (R62). -/
def execAnd (d a b : Reg) (s : State) : Host.Outcome State Fault Refusal :=
  .next (s.onUnit (commandRRR andLaw d a b))

/-- OR (R63). -/
def execOr (d a b : Reg) (s : State) : Host.Outcome State Fault Refusal :=
  .next (s.onUnit (commandRRR orLaw d a b))

/-- XOR (R64). -/
def execXor (d a b : Reg) (s : State) : Host.Outcome State Fault Refusal :=
  .next (s.onUnit (commandRRR xorLaw d a b))

end Sys2Proof.Machine
end

