-- ==== Sys2Proof/Machine/Compare.lean ====
section
/-! DEFINITION. The comparison engine (43_compare.md): signed comparisons that write F only (C12). -/

namespace Sys2Proof.Machine

/-- EQ (R89). -/
def eqTest (x y : Int) : Bool := decide (x = y)

/-- NE (R90): "the complement of the EQ result". -/
def neTest (x y : Int) : Bool := !eqTest x y

/-- LT (R91). -/
def ltTest (x y : Int) : Bool := decide (x < y)

/-- LE (R92): the complement of LT with the operands swapped. -/
def leTest (x y : Int) : Bool := !ltTest y x

/-- GT (R93): LT with the operands swapped. -/
def gtTest (x y : Int) : Bool := ltTest y x

/-- GE (R94): the complement of LT. -/
def geTest (x y : Int) : Bool := !ltTest x y

/-- EQ (R89). -/
def execEq (a b : Reg) (s : State) : Host.Outcome State Fault Refusal :=
  .next (s.onUnit (commandCMP eqTest a b))

/-- NE (R90). -/
def execNe (a b : Reg) (s : State) : Host.Outcome State Fault Refusal :=
  .next (s.onUnit (commandCMP neTest a b))

/-- LT (R91). -/
def execLt (a b : Reg) (s : State) : Host.Outcome State Fault Refusal :=
  .next (s.onUnit (commandCMP ltTest a b))

/-- LE (R92). -/
def execLe (a b : Reg) (s : State) : Host.Outcome State Fault Refusal :=
  .next (s.onUnit (commandCMP leTest a b))

/-- GT (R93). -/
def execGt (a b : Reg) (s : State) : Host.Outcome State Fault Refusal :=
  .next (s.onUnit (commandCMP gtTest a b))

/-- GE (R94). -/
def execGe (a b : Reg) (s : State) : Host.Outcome State Fault Refusal :=
  .next (s.onUnit (commandCMP geTest a b))

end Sys2Proof.Machine
end

