-- ==== Sys2Proof/Machine/Shift.lean ====
section
/-! DEFINITION. The shift engine (41_shift.md): SHL and SHR by a whole register; a negative amount gives 0 (R66). -/

namespace Sys2Proof.Machine

/-- The value law of SHL (R67). -/
def shlLaw (x n : Int) : Int := if n < 0 then 0 else x * ((2 ^ n.toNat : Nat) : Int)

/-- The value law of SHR (R68): `floor(x / 2^n)`, rounded toward minus infinity. `Int.shiftRight` is that quotient
without the power being computed. -/
def shrLaw (x n : Int) : Int := if n < 0 then 0 else x >>> n.toNat

/-- SHL (R67). -/
def execShl (d a b : Reg) (s : State) : Host.Outcome State Fault Refusal :=
  .next (s.onUnit (commandRRR shlLaw d a b))

/-- SHR (R68). -/
def execShr (d a b : Reg) (s : State) : Host.Outcome State Fault Refusal :=
  .next (s.onUnit (commandRRR shrLaw d a b))

end Sys2Proof.Machine
end

