-- ==== Sys2Proof/Machine/Dispatch.lean ====
section
/-! DEFINITION. exec: the meaning of each command of the opcode map (30_encoding.md R54). -/

namespace Sys2Proof.Machine

/-- One arm per command, each its meaning. -/
def exec (i : Instr) (s : State) : Host.Outcome State Fault Refusal :=
  match i with
  -- 40_bitwise.md
  | .not d a => Sys2Proof.Machine.execNot d a s
  | .and d a b => Sys2Proof.Machine.execAnd d a b s
  | .or d a b => Sys2Proof.Machine.execOr d a b s
  | .xor d a b => Sys2Proof.Machine.execXor d a b s
  -- 41_shift.md
  | .shl d a b => Sys2Proof.Machine.execShl d a b s
  | .shr d a b => Sys2Proof.Machine.execShr d a b s
  -- 42_arithmetic.md
  | .neg d a => Sys2Proof.Machine.execNeg d a s
  | .inc d a => Sys2Proof.Machine.execInc d a s
  | .dec d a => Sys2Proof.Machine.execDec d a s
  | .add d a b => Sys2Proof.Machine.execAdd d a b s
  | .sub d a b => Sys2Proof.Machine.execSub d a b s
  | .mul d a b => Sys2Proof.Machine.execMul d a b s
  | .bitlen d a => Sys2Proof.Machine.execBitlen d a s
  -- 43_compare.md
  | .eq a b => Sys2Proof.Machine.execEq a b s
  | .ne a b => Sys2Proof.Machine.execNe a b s
  | .lt a b => Sys2Proof.Machine.execLt a b s
  | .le a b => Sys2Proof.Machine.execLe a b s
  | .gt a b => Sys2Proof.Machine.execGt a b s
  | .ge a b => Sys2Proof.Machine.execGe a b s

end Sys2Proof.Machine
end

