-- ==== Sys2Proof/Machine/Execute.lean ====
section
/-! DEFINITION. The commands on an MWU of any configuration (00_scope.md R7): the format's execution over the value law.
On this hardware it is what `exec` does (Laws/Ops.lean, `exec_eq_execute`). -/

namespace Sys2Proof.Machine

/-- The effect of a command on an MWU with the parameters `cfg` (30_encoding.md R54, R58). -/
def execute {cfg : Config} (i : Instr) : Mwu cfg → Mwu cfg :=
  match i with
  | .not d a => commandRR notLaw d a
  | .and d a b => commandRRR andLaw d a b
  | .or d a b => commandRRR orLaw d a b
  | .xor d a b => commandRRR xorLaw d a b
  | .shl d a b => commandRRR shlLaw d a b
  | .shr d a b => commandRRR shrLaw d a b
  | .neg d a => commandRR negLaw d a
  | .inc d a => commandRR incLaw d a
  | .dec d a => commandRR decLaw d a
  | .add d a b => commandRRR addLaw d a b
  | .sub d a b => commandRRR subLaw d a b
  | .mul d a b => commandRRR mulLaw d a b
  | .bitlen d a => commandRR bitlenLaw d a
  | .eq a b => commandCMP eqTest a b
  | .ne a b => commandCMP neTest a b
  | .lt a b => commandCMP ltTest a b
  | .le a b => commandCMP leTest a b
  | .gt a b => commandCMP gtTest a b
  | .ge a b => commandCMP geTest a b

end Sys2Proof.Machine
end

