-- ==== Sys2Proof/Machine/HostPort.lean ====
section
/-! DEFINITION. The host's transactions (44_host_interface.md section 1, 70_reset_and_hazards.md R122): what each does to
an MWU of any configuration and what the host gets back, and the port of this hardware. -/

namespace Sys2Proof.Machine

variable {cfg : Config}

/-- `HWRITE(i, s, w)` (R97): discarded while ERR = 1 (60_exceptions.md R110); else REG_RANGE, CAPACITY on the
normalized pair, or the write. It gets back "completion, or an error" (R96; log 6). -/
def hwrite (i : Reg) (sign : Bool) (words : List (BitVec cfg.wordBits)) (u : Mwu cfg) : Mwu cfg × Reply cfg.wordBits :=
  if u.err then (u, .completion)
  else if i.val < cfg.numVreg then
    let p : BigInt cfg.wordBits := BigInt.normalize { sign := sign, words := words }
    if fits cfg p then (u.writeReg i p, .completion) else (u.raise .capacity, .error)
  else (u.raise .regRange, .error)

/-- `HREAD(i)` (R98): serviced whatever ERR is; with no value to return it raises and returns no data. -/
def hread (i : Reg) (u : Mwu cfg) : Mwu cfg × Reply cfg.wordBits :=
  if i.val < cfg.numVreg then
    match u.reg i with
    | some p => (u, .value p.sign p.words.length p.words)
    | none => (u.raise .unwritten, .error)
  else (u.raise .regRange, .error)

/-- The cause an undecodable word raises (30_encoding.md R56, R57). -/
def causeOfDecodeError : DecodeError → Cause
  | .illegalOpcode => .illegalOpcode
  | .reservedField => .reservedField

/-- `execute(c)` in full (30_encoding.md R58), for every configuration. The checks on the registers are the command's
own, in its meaning, which tests ERR again (log 11). -/
def executeWord (c : BitVec 32) (u : Mwu cfg) : Mwu cfg :=
  if u.err then u
  else
    match decode c with
    | .error e => u.raise (causeOfDecodeError e)
    | .ok i => execute i u

/-- One transaction with an MWU of any configuration (R96): the MWU after it, and what the host gets back. An HCMD gets
back completion, whatever came of it (R99). -/
def Mwu.perform (u : Mwu cfg) (t : Transaction cfg.wordBits) : Mwu cfg × Reply cfg.wordBits :=
  match t with
  | .hwrite i sign words => hwrite i sign words u
  | .hread i => hread i u
  | .hcmd c => (executeWord c u, .completion)
  | .hreadStatus => (u, .status u.statusWord)
  | .hreadValid => (u, .valid u.validWord)
  | .reset => (u.resetUnit, .completion)

/-! ### The port of this hardware -/

/-- `HCMD(c)` (R99): `execute(c)` (R58), each command by its meaning. -/
def hcmd (c : BitVec 32) (s : State) : Host.Outcome State Fault Refusal :=
  if s.err then .next (s.answer .completion)
  else
    match decode c with
    | .error e => .next ((s.onUnit (·.raise (causeOfDecodeError e))).answer .completion)
    | .ok i => exec i (s.answer .completion)

/-- `g` done to the MWU, and its answer given to the host. -/
def State.transact (s : State) (g : Mwu Config.hw → Mwu Config.hw × HostReply) : State :=
  (s.onUnit fun u => (g u).1).answer (g s.toMwu).2

/-- One transaction (R96). -/
def perform (t : HostTransaction) (s : State) : Host.Outcome State Fault Refusal :=
  match t with
  | .hcmd c => hcmd c s
  | .hwrite i sign words => .next (s.transact (hwrite i sign words))
  | .hread i => .next (s.transact (hread i))
  | .hreadStatus => .next (s.transact fun u => (u, .status u.statusWord))
  | .hreadValid => .next (s.transact fun u => (u, .valid u.validWord))
  | .reset => .next (s.transact fun u => (u.resetUnit, .completion))

/-- The MWU takes the oldest transaction issued and performs it in full (20_memory.md R43, R45). With none issued it
waits for the host (70_reset_and_hazards.md R123) and nothing changes. The host's other transactions are no state of
the MWU, and stay whatever this one is (log 7). -/
def performNext (s : State) : Host.Outcome State Fault Refusal :=
  match s.pending with
  | [] => .next s
  | t :: rest => perform t { s with pending := rest }

/-- The host issues the transaction `t` ahead of every other. -/
def State.issue (s : State) (t : HostTransaction) : State := { s with pending := t :: s.pending }

end Sys2Proof.Machine
end

