-- ==== Sys2Proof/Machine/Step.lean ====
section
/-! DEFINITION. One step of the machine: one transaction. -/

namespace Sys2Proof.Machine

/-- A step performs the next transaction of the host (20_memory.md R45). -/
def step (s : State) : Host.Outcome State Fault Refusal := performNext s

/-- `s` with the command word `w` as the next transaction. The MWU fetches nothing (20_memory.md R48): "each is the
data of one HCMD transaction". -/
def State.withFetchWord (s : State) (nbits w : Nat) : State := s.issue (.hcmd (BitVec.ofNat 32 (w % 2 ^ nbits)))

end Sys2Proof.Machine
end

