-- ==== Sys2Proof/Machine/Pseudo.lean ====
section
/-! DEFINITION. The pseudo-instructions and their expansions (30_encoding.md R60, D27). They have no command words of
their own. -/

namespace Sys2Proof

/-- The pseudo-instructions (R60): destination `d`, source `a`. -/
inductive Pseudo where
  | mov (d a : Reg)
  | clr (d a : Reg)
  | setm1 (d a : Reg)
  | postinc (d a : Reg)
  | postdec (d a : Reg)
deriving DecidableEq, Repr

/-- The commands a pseudo-instruction stands for (R60). -/
def Pseudo.expand : Pseudo → List Instr
  | .mov d a => [.or d a a]
  | .clr d a => [.xor d a a]
  | .setm1 d a => [.xor d a a, .not d d]
  | .postinc d a => [.or d a a, .inc a a]
  | .postdec d a => [.or d a a, .dec a a]

/-- The host issues the commands of a pseudo-instruction, one HCMD each. -/
def Pseudo.transactions {W : Nat} (p : Pseudo) : List (Machine.Transaction W) := p.expand.map fun i => .hcmd (encode i)

end Sys2Proof
end

