-- ==== Sys2Proof/Machine/Asm.lean ====
section
/-! DEFINITION. The assembly notation (30_encoding.md R60, D27): the text of a command, and the transactions a line
of text stands for. Text is a list of characters. DESIGN CHOICES of the notation, which R60 leaves open: log 14. -/

namespace Sys2Proof.Asm

open Sys2Proof.Machine

/-- The upper-case form of a letter: "Mnemonics and register names are case-insensitive". DESIGN CHOICE (log 14): so are
the names of the host's lines, of which R60 does not say it. -/
def upcase (c : Char) : Char := if 97 ≤ c.toNat ∧ c.toNat ≤ 122 then Char.ofNat (c.toNat - 32) else c

/-- A token of a line: a run of other characters, or one punctuation mark. -/
inductive Token where
  | word (cs : List Char)
  | mark (c : Char)
deriving DecidableEq, Repr

/-- The opening brace. -/
def braceOpen : Char := Char.ofNat 123

/-- The closing brace. -/
def braceClose : Char := Char.ofNat 125

/-- A punctuation mark of the notation. -/
def isMark (c : Char) : Bool := c = ',' || c = '=' || c = '[' || c = ']' || c = braceOpen || c = braceClose

/-- A space or a tab. -/
def isBlank (c : Char) : Bool := c = ' ' || c = '\t'

/-- The word being read, if it has begun. -/
def closeWord (acc : List Char) (rest : List Token) : List Token :=
  if acc = [] then rest else .word acc.reverse :: rest

/-- The tokens of a line; `;` starts a comment (R60). -/
def tokens (acc : List Char) : List Char → List Token
  | [] => closeWord acc []
  | c :: cs =>
    if c = ';' then closeWord acc []
    else if isBlank c then closeWord acc (tokens [] cs)
    else if isMark c then closeWord acc (.mark c :: tokens [] cs)
    else tokens (c :: acc) cs

/-- The decimal text of a number below 100. -/
def decimalText (n : Nat) : List Char :=
  if n < 10 then [Char.ofNat (48 + n)] else [Char.ofNat (48 + n / 10), Char.ofNat (48 + n % 10)]

/-- The name of a register: `V0` to `V15`. -/
def regName (r : Reg) : List Char := 'V' :: decimalText r.val

/-- The register of a name, in either case. -/
def readReg (cs : List Char) : Option Reg := (List.finRange 16).find? fun r => regName r = cs.map upcase

/-- The value of a digit. -/
def digitValue (c : Char) : Option Nat :=
  let n := c.toNat
  if 48 ≤ n ∧ n ≤ 57 then some (n - 48)
  else if 97 ≤ n ∧ n ≤ 102 then some (n - 87)
  else if 65 ≤ n ∧ n ≤ 70 then some (n - 55)
  else none

/-- A run of digits in a base, continuing from `acc`. -/
def readDigits (base acc : Nat) : List Char → Option Nat
  | [] => some acc
  | c :: cs =>
    match digitValue c with
    | some d => if d < base then readDigits base (acc * base + d) cs else none
    | none => none

/-- A natural number: decimal, or hexadecimal with prefix `0x`. R60 says so of an `<integer>`; DESIGN CHOICE (log 14): a
`<word>` of a raw pair, whose notation R60 does not give, is written the same way, without a sign. -/
def readNat (cs : List Char) : Option Nat :=
  match cs with
  | [] => none
  | ['0', 'x'] => none
  | '0' :: 'x' :: ds => readDigits 16 0 ds
  | ds => readDigits 10 0 ds

/-- An integer: a natural number "with an optional leading `-`". -/
def readInt (cs : List Char) : Option Int :=
  match cs with
  | '-' :: ds => (readNat ds).map fun n => -(n : Int)
  | ds => (readNat ds).map fun n => (n : Int)

/-- What a mnemonic in upper case names: a row of the opcode map, or a pseudo-instruction. -/
inductive Mnemonic where
  | command (row : OpcodeRow)
  | pseudo (make : Reg → Reg → Pseudo) (distinct : Bool)

/-- The mnemonics of R54 and R60. `distinct`: the pseudo-instruction "needs d ≠ s". -/
def mnemonic (cs : List Char) : Option Mnemonic :=
  match cs with
  | ['N', 'O', 'T'] => some (.command (.rr .not))
  | ['A', 'N', 'D'] => some (.command (.rrr .and))
  | ['O', 'R'] => some (.command (.rrr .or))
  | ['X', 'O', 'R'] => some (.command (.rrr .xor))
  | ['S', 'H', 'L'] => some (.command (.rrr .shl))
  | ['S', 'H', 'R'] => some (.command (.rrr .shr))
  | ['N', 'E', 'G'] => some (.command (.rr .neg))
  | ['I', 'N', 'C'] => some (.command (.rr .inc))
  | ['D', 'E', 'C'] => some (.command (.rr .dec))
  | ['A', 'D', 'D'] => some (.command (.rrr .add))
  | ['S', 'U', 'B'] => some (.command (.rrr .sub))
  | ['M', 'U', 'L'] => some (.command (.rrr .mul))
  | ['B', 'I', 'T', 'L', 'E', 'N'] => some (.command (.rr .bitlen))
  | ['E', 'Q'] => some (.command (.cmp .eq))
  | ['N', 'E'] => some (.command (.cmp .ne))
  | ['L', 'T'] => some (.command (.cmp .lt))
  | ['L', 'E'] => some (.command (.cmp .le))
  | ['G', 'T'] => some (.command (.cmp .gt))
  | ['G', 'E'] => some (.command (.cmp .ge))
  | ['M', 'O', 'V'] => some (.pseudo .mov false)
  | ['C', 'L', 'R'] => some (.pseudo .clr false)
  | ['S', 'E', 'T', 'M', '1'] => some (.pseudo .setm1 false)
  | ['P', 'O', 'S', 'T', 'I', 'N', 'C'] => some (.pseudo .postinc true)
  | ['P', 'O', 'S', 'T', 'D', 'E', 'C'] => some (.pseudo .postdec true)
  | _ => none

/-- A list of words `[<word>, …]` up to its closing bracket, and what follows it. Each word is in `[0, 2^W)` (R97) and
written as `readNat` reads it (DESIGN CHOICE, log 14). -/
def readWords {W : Nat} (acc : List (BitVec W)) : List Token → Option (List (BitVec W) × List Token)
  | .mark ']' :: rest => if acc = [] then some ([], rest) else none
  | .word cs :: .mark m :: rest =>
    match readNat cs with
    | some n =>
      if n < 2 ^ W then
        if m = ',' then readWords (acc ++ [BitVec.ofNat W n]) rest
        else if m = ']' then some (acc ++ [BitVec.ofNat W n], rest)
        else none
      else none
    | none => none
  | _ => none

/-- The value operand of a HWRITE line: an integer, written as its canonical pair, or a raw pair. -/
def readPair (W : Nat) (ts : List Token) : Option (BigInt W) :=
  match ts with
  | [.word cs] => (readInt cs).map fun v => canon W v
  | .mark o :: .word ['s'] :: .mark '=' :: .word [b] :: .mark ',' :: .word ['w'] :: .mark '=' :: .mark '[' :: rest =>
    if o = braceOpen ∧ (b = '0' ∨ b = '1') then
      match readWords [] rest with
      | some (ws, [.mark c]) => if c = braceClose then some { sign := decide (b = '1'), words := ws } else none
      | _ => none
    else none
  | _ => none

/-- Register operands separated by commas. -/
def readRegs : List Token → Option (List Reg)
  | [.word cs] => (readReg cs).map fun r => [r]
  | .word cs :: .mark ',' :: rest =>
    match readReg cs, readRegs rest with
    | some r, some rs => some (r :: rs)
    | _, _ => none
  | _ => none

/-- A line that begins with a mnemonic of R54 or R60. -/
def readCommand {W : Nat} (m : Mnemonic) (rs : List Reg) : Option (List (Transaction W)) :=
  match m, rs with
  | .command (.rrr make), [d, a, b] => some [.hcmd (encode (make d a b))]
  | .command (.rr make), [d, a] => some [.hcmd (encode (make d a))]
  | .command (.cmp make), [a, b] => some [.hcmd (encode (make a b))]
  | .pseudo make distinct, [d, a] => if distinct = true ∧ d = a then none else some (make d a).transactions
  | _, _ => none

/-- The transactions a line stands for (R60), at word width `W`. DESIGN CHOICES (log 14): a line with no token stands for
none, and HWRITE, HREAD, HREADSTATUS, HREADVALID and RESET are read in either letter case, as mnemonics are. -/
def assemble (W : Nat) (line : List Char) : Option (List (Transaction W)) :=
  match tokens [] line with
  | [] => some []
  | .word cs :: ts =>
    match cs.map upcase, ts with
    | ['H', 'R', 'E', 'A', 'D', 'S', 'T', 'A', 'T', 'U', 'S'], [] => some [.hreadStatus]
    | ['H', 'R', 'E', 'A', 'D', 'V', 'A', 'L', 'I', 'D'], [] => some [.hreadValid]
    | ['R', 'E', 'S', 'E', 'T'], [] => some [.reset]
    | ['H', 'R', 'E', 'A', 'D'], [.word r] => (readReg r).map fun i => [.hread i]
    | ['H', 'W', 'R', 'I', 'T', 'E'], .word r :: .mark ',' :: rest =>
      match readReg r, readPair W rest with
      | some i, some p => some [.hwrite i p.sign p.words]
      | _, _ => none
    | name, ts =>
      match mnemonic name, readRegs ts with
      | some m, some rs => readCommand m rs
      | _, _ => none
  | _ => none

/-- The operands of a command, in the order of R60. -/
def regsText : List Reg → List Char
  | [] => []
  | [r] => regName r
  | r :: rs => regName r ++ [',', ' '] ++ regsText rs

/-- The mnemonic of a command (R54). -/
def nameText : Instr → List Char
  | .not _ _ => ['N', 'O', 'T']
  | .and _ _ _ => ['A', 'N', 'D']
  | .or _ _ _ => ['O', 'R']
  | .xor _ _ _ => ['X', 'O', 'R']
  | .shl _ _ _ => ['S', 'H', 'L']
  | .shr _ _ _ => ['S', 'H', 'R']
  | .neg _ _ => ['N', 'E', 'G']
  | .inc _ _ => ['I', 'N', 'C']
  | .dec _ _ => ['D', 'E', 'C']
  | .add _ _ _ => ['A', 'D', 'D']
  | .sub _ _ _ => ['S', 'U', 'B']
  | .mul _ _ _ => ['M', 'U', 'L']
  | .bitlen _ _ => ['B', 'I', 'T', 'L', 'E', 'N']
  | .eq _ _ => ['E', 'Q']
  | .ne _ _ => ['N', 'E']
  | .lt _ _ => ['L', 'T']
  | .le _ _ => ['L', 'E']
  | .gt _ _ => ['G', 'T']
  | .ge _ _ => ['G', 'E']

/-- The text of a command: `MNEMONIC operands` (R60). -/
def commandText (i : Instr) : List Char := nameText i ++ [' '] ++ regsText i.registers

end Sys2Proof.Asm
end

