-- ==== Sys2Proof/Machine/HostConversions.lean ====
section
/-! DEFINITION. The host-side conversions (44_host_interface.md section 3): construction from native integers and
toHex. They are no commands; the host runs them. -/

namespace Sys2Proof

/-- `sext_N(b)` (00_scope.md R17): an N-bit pattern as a two's-complement integer. -/
def sext {N : Nat} (b : BitVec N) : Int := b.toInt

/-- `zext_N(b)` (00_scope.md R17): an N-bit pattern as an unsigned integer. -/
def zext {N : Nat} (b : BitVec N) : Int := b.toNat

/-- Construction from an N-bit native signed integer with pattern `b` (R103, D21). -/
def fromSigned (W : Nat) {N : Nat} (b : BitVec N) : BigInt W := canon W (sext b)

/-- Construction from an N-bit native unsigned integer with pattern `b` (R104). -/
def fromUnsigned (W : Nat) {N : Nat} (b : BitVec N) : BigInt W := canon W (zext b)

/-- The hexadecimal digit of `n < 16` in the case `c` (R105). -/
def hexDigit (c : HexCase) (n : Nat) : Char :=
  if n < 10 then Char.ofNat (48 + n)
  else
    match c with
    | .lower => Char.ofNat (87 + n)
    | .upper => Char.ofNat (55 + n)

/-- The `k` lowest hexadecimal digits of `m`, most significant first. -/
def hexDigits (c : HexCase) : Nat → Nat → List Char
  | 0, _ => []
  | k + 1, m => hexDigits c k (m / 16) ++ [hexDigit c (m % 16)]

/-- `toHex` (R105; C4, C5), as the list of its characters: a magnitude of `n` bits has `⌈n / 4⌉` digits, so no
leading zero digit. -/
def toHex {W : Nat} (cfg : Config) (x : BigInt W) : List Char :=
  if x.val = 0 then
    match cfg.hexZero with
    | .bare => ['0']
    | .prefixed => ['0', 'x', '0']
  else
    (if x.val < 0 then ['-'] else []) ++ ['0', 'x']
      ++ hexDigits cfg.hexCase ((bitCount x.val.natAbs + 3) / 4) x.val.natAbs

end Sys2Proof
end

