-- ==== Sys2Proof/Machine/WordEngine.lean ====
section
/-! DEFINITION. The word-level algorithms of 40_bitwise.md to 43_compare.md, "one implementation that meets" each
value law (00_scope.md R18, D25), for every word width. The commands' meanings are the value laws; these are claimed
equal to them. Every literal is the corrected one of 90_conflicts.md. -/

namespace Sys2Proof

variable {W : Nat}

/-! ### Bitwise engine -/

/-- NOT (R61): complement every stored word and flip the sign. -/
def notWords (x : BigInt W) : BigInt W := BigInt.normalize { sign := !x.sign, words := x.words.map (~~~·) }

/-- The word sequence of AND (R62): in lock-step, then the longer operand copied through where the other's
extension is ALL_ONES, else nothing. -/
def andLists (sx sy : Bool) : List (BitVec W) → List (BitVec W) → List (BitVec W)
  | [], ys => if sx then ys else []
  | xs, [] => if sy then xs else []
  | x :: xs, y :: ys => (x &&& y) :: andLists sx sy xs ys

/-- AND (R62). -/
def andWords (x y : BigInt W) : BigInt W :=
  BigInt.normalize { sign := x.sign && y.sign, words := andLists x.sign y.sign x.words y.words }

/-- The word sequence of OR (R63): copied through where the exhausted operand's extension is 0. -/
def orLists (sx sy : Bool) : List (BitVec W) → List (BitVec W) → List (BitVec W)
  | [], ys => if sx then [] else ys
  | xs, [] => if sy then [] else xs
  | x :: xs, y :: ys => (x ||| y) :: orLists sx sy xs ys

/-- OR (R63). -/
def orWords (x y : BigInt W) : BigInt W :=
  BigInt.normalize { sign := x.sign || y.sign, words := orLists x.sign y.sign x.words y.words }

/-- XOR (R64): effective words over both lengths. -/
def xorWords (x y : BigInt W) : BigInt W :=
  BigInt.normalize
    { sign := x.sign ^^ y.sign
      words := (List.range (max x.words.length y.words.length)).map fun i => x.eff i ^^^ y.eff i }

/-! ### Shift engine -/

/-- The words of `shl1` from carry `c` upward, and the carry out of the top word (R69). -/
def shl1List (c : Bool) : List (BitVec W) → List (BitVec W) × Bool
  | [] => ([], c)
  | w :: ws =>
    let rest := shl1List (w.getLsbD (W - 1)) ws
    (((w <<< 1) ||| (if c then 1 else 0)) :: rest.1, rest.2)

/-- `shl1(s, w)` (R69; C1, C7, C8). -/
def shl1 (x : BigInt W) : BigInt W :=
  let out := shl1List false x.words
  if out.2 = x.sign then { x with words := out.1 }
  else { x with words := out.1 ++ [if x.sign then notOne W else 1] }

/-- `shr1(s, w)` (R70): the words, whose top word is filled with `t`, the fill of a word being the bottom bit of the
next-more-significant one. -/
def shr1List (t : Bool) : List (BitVec W) → List (BitVec W)
  | [] => []
  | w :: ws =>
    let fill := match ws with
      | [] => t
      | v :: _ => v.getLsbD 0
    ((w >>> 1) ||| (if fill then msbWord W else 0)) :: shr1List t ws

/-- `shr1(s, w)` (R70). -/
def shr1 (x : BigInt W) : BigInt W := { x with words := shr1List x.sign x.words }

/-- `f` applied `n` times. -/
def repeatTimes {α : Type} (f : α → α) : Nat → α → α
  | 0, x => x
  | n + 1, x => repeatTimes f n (f x)

/-- SHL (R67; C9): prepend a zero word for every W bits of the amount, step bit by bit for the rest. -/
def shlWords (x : BigInt W) (n : Int) : BigInt W :=
  if n < 0 then { sign := false, words := [] }
  else
    (repeatTimes shl1 (n.toNat % W)
      { x with words := List.replicate (n.toNat / W) 0 ++ x.words }).normalize

/-- SHR (R68): drop a word for every W bits of the amount; with none left the value is the sign's; step bit by bit
for the rest. -/
def shrWords (x : BigInt W) (n : Int) : BigInt W :=
  if n < 0 then { sign := false, words := [] }
  else
    let dropped : BigInt W := { x with words := x.words.drop (n.toNat / W) }
    if dropped.words = [] then dropped else (repeatTimes shr1 (n.toNat % W) dropped).normalize

/-! ### Arithmetic engine -/

/-- The adder cell `addw(a, b, cin)` by isolation of the top bit (R73; C3): the word and the carry out. -/
def addCell (a b : BitVec W) (cin : Bool) : BitVec W × Bool :=
  let ta := a.getLsbD (W - 1)
  let tb := b.getLsbD (W - 1)
  let u := (a &&& allButMsb W) + (b &&& allButMsb W)
  let rc : BitVec W × Bool :=
    if ta ≠ tb then
      if u.getLsbD (W - 1) then (u &&& allButMsb W, true) else (u ||| msbWord W, false)
    else (u, ta)
  if cin then (rc.1 + 1, rc.2 || decide (rc.1 + 1 = 0)) else rc

/-- The ripple of `addCell` over `m` positions from position `i` with carry `c` (R74): the words and the last carry. -/
def ripple (x y : BigInt W) : Nat → Nat → Bool → List (BitVec W) × Bool
  | 0, _, c => ([], c)
  | m + 1, i, c =>
    let cell := addCell (x.eff i) (y.eff i) c
    let rest := ripple x y m (i + 1) cell.2
    (cell.1 :: rest.1, rest.2)

/-- `final(c, sx, sy)` (R75; C2): the result's sign and the extra word, from the last carry and the signs. -/
def finalCarry (W : Nat) (c sx sy : Bool) : Bool × List (BitVec W) :=
  match c, sx, sy with
  | false, false, false => (false, [])
  | true, false, false => (false, [1])
  | false, true, false => (true, [])
  | false, false, true => (true, [])
  | true, true, true => (true, [])
  | true, true, false => (false, [])
  | true, false, true => (false, [])
  | false, true, true => (true, [notOne W])

/-- ADD: `addv(x, y)` (R74, R80). -/
def addWords (x y : BigInt W) : BigInt W :=
  let r := ripple x y (max x.words.length y.words.length) 0 false
  let last := finalCarry W r.2 x.sign y.sign
  BigInt.normalize { sign := last.1, words := r.1 ++ last.2 }

/-- The words of `incv` (R76): zero every ALL_ONES word up to the first other one and add 1 to that, or append 1. -/
def incList : List (BitVec W) → List (BitVec W)
  | [] => [1]
  | w :: ws => if w = allOnes W then 0 :: incList ws else (w + 1) :: ws

/-- INC: `incv(s, w)` (R76, R78). -/
def incWords (x : BigInt W) : BigInt W :=
  if x.sign = true ∧ x.words.all (fun w => decide (w = allOnes W)) = true then { sign := false, words := [] }
  else
    let r : BigInt W := { x with words := incList x.words }
    if x.sign then r.normalize else r

/-- NEG (R77): complement, then increment. -/
def negWords (x : BigInt W) : BigInt W := incWords (notWords x)

/-- DEC (R79): complement, increment, complement. -/
def decWords (x : BigInt W) : BigInt W := notWords (incWords (notWords x))

/-- SUB (R81): `x + (-y)`. -/
def subWords (x y : BigInt W) : BigInt W := addWords x (negWords y)

/-- The loop of MUL (R82) from `mask`, `sh` and `r`, run `n` times at most: while `mask ≤ ay`, add `sh` where the
mask meets `ay`, and double both. -/
def mulLoop (ay : Nat) : Nat → Nat → Nat → Nat → Nat
  | 0, _, _, r => r
  | n + 1, mask, sh, r =>
    if mask ≤ ay then mulLoop ay n (2 * mask) (2 * sh) (if ay &&& mask ≠ 0 then r + sh else r) else r

/-- MUL (R82): shift-and-add on the magnitudes, negated where the signs differ. The loop runs as often as `|y|` has
bits. -/
def mulWords (x y : BigInt W) : BigInt W :=
  let r := mulLoop y.val.natAbs (bitCount y.val.natAbs) 1 x.val.natAbs 0
  if x.sign ≠ y.sign then canon W (-(r : Int)) else canon W r

/-- BITLEN (R83; C11): `W·(k-1) + p` with `p` the bits of the top word, 0 for a value that is not positive. -/
def bitlenWords (x : BigInt W) : Nat :=
  if x.sign then 0
  else
    match x.words.getLast? with
    | none => 0
    | some top => W * (x.words.length - 1) + bitCount top.toNat

/-! ### Comparison engine -/

/-- EQ (R89): `normalize(x XOR y)` is the zero value. -/
def eqWords (x y : BigInt W) : Bool := decide (xorWords x y = { sign := false, words := [] })

/-- LT (R91): the short-circuit, else the sign of the difference. -/
def ltWords (x y : BigInt W) : Bool := if x.sign = false ∧ y.sign = true then false else (subWords x y).sign

end Sys2Proof
end

