-- ==== Sys2Proof/Safety.lean ====
section
/-! DEFINITION. What counts as a safe state, a legal state and an unchanged rest of the state, in the terms the
claims use. -/

namespace Sys2Proof.Machine

variable {cfg : Config}

/-- "a state with ERR = 1 is a fault state: never a successful end of a run" (60_exceptions.md R110). -/
abbrev State.InError (s : State) : Prop := s.err = true

/-- The invariant of an MWU: every register that holds a value holds a normalized pair (10_state.md R23) within the
capacity (R21), and CAUSE holds 0 exactly while ERR = 0 (R30). -/
structure Mwu.Legal (u : Mwu cfg) : Prop where
  registers : ∀ (i : Nat) (p : BigInt cfg.wordBits), u.reg i = some p → p.Normalized ∧ fits cfg p = true
  cause : u.err = false ↔ u.cause = .noError

/-- `t` is `u` but, at most, for the contents of register `d`. -/
structure Mwu.OnlyRegisterChanged (d : Nat) (u t : Mwu cfg) : Prop where
  registers : ∀ j : Nat, j ≠ d → t.reg j = u.reg j
  flag : t.f = u.f
  err : t.err = u.err
  cause : t.cause = u.cause

/-- `t` is `s` but, at most, for the contents of register `d`. -/
structure OnlyRegisterChanged (d : Nat) (s t : State) : Prop where
  unit : s.toMwu.OnlyRegisterChanged d t.toMwu
  pending : t.pending = s.pending
  reply : t.reply = s.reply

/-- `t` is `s` but, at most, for the contents of registers `d` and `a`. -/
structure OnlyRegistersChanged (d a : Nat) (s t : State) : Prop where
  registers : ∀ j : Nat, j ≠ d → j ≠ a → t.reg j = s.reg j
  flag : t.f = s.f
  err : t.err = s.err
  cause : t.cause = s.cause
  pending : t.pending = s.pending
  reply : t.reply = s.reply

/-- `t` is `s` but, at most, for F. -/
structure OnlyFlagChanged (s t : State) : Prop where
  registers : ∀ j : Nat, t.reg j = s.reg j
  err : t.err = s.err
  cause : t.cause = s.cause
  pending : t.pending = s.pending
  reply : t.reply = s.reply

/-- `t` holds what `s` holds as far as the MWU's own state goes (10_state.md R32): registers, VALID and STATUS. -/
abbrev SameUnit (s t : State) : Prop := t.toMwu = s.toMwu

/-- The MWU before an error, with ERR and CAUSE set (60_exceptions.md R112). -/
def Mwu.withError (u : Mwu cfg) (code : Cause) : Mwu cfg := { u with err := true, cause := code }

/-- The state before an error, with ERR and CAUSE set. -/
def State.withError (s : State) (code : Cause) : State := s.onUnit (·.withError code)

/-- The state with the transaction at the front of the host's taken: `rest` is left, and `r` is the answer. -/
def State.answered (s : State) (rest : List HostTransaction) (r : HostReply) : State :=
  { s with pending := rest, reply := some r }

/-- Commands one after the other, in the order the host issues them (60_exceptions.md R118). -/
def runCommands : List Instr → State → Host.Outcome State Fault Refusal
  | [], s => .next s
  | i :: is, s =>
    match exec i s with
    | .next t => runCommands is t
    | .fault r => .fault r
    | .refused r => .refused r

end Sys2Proof.Machine
end

