-- ==== Sys2Proof/Certificates/Slice0/Obligations.lean ====
section
/-! DEFINITION. The statements for the provers. Where a statement speaks of a value register's result it says the
integer it means (`val`, 00_scope.md R13) and that the pair is normalized, which together fix the pair (R15). -/

open Sys2Proof
open Sys2Proof.Machine

/-! ### Reset, the step, the encoding -/

/-- R37: after reset no register holds a value, VALID is 0x0000, and F, ERR, CAUSE and the reserved bits are 0. -/
def Obligations.ResetStateHoldsNothing : Prop :=
  (∀ i : Nat, State.reset.reg i = none) ∧ State.reset.validWord = 0 ∧
    State.reset.f = false ∧ State.reset.err = false ∧ State.reset.cause = .noError ∧
    State.reset.statusWord = 0

/-- The invariant of `StepKeepsTheMachineLegal` holds after reset. -/
def Obligations.ResetStateIsLegal : Prop := State.reset.toMwu.Legal

/-- A step with the command word of `i` issued is `exec i` once the word has left the port and the host has its
completion; a step with any transaction issued does to the MWU, and answers the host, what that transaction does with
the unit of every configuration at this hardware's parameters; a step with nothing issued changes nothing;
`withFetchWord` issues the word it is given. The port is the model's own (log 5, log 6). -/
def Obligations.StepRunsTheIssuedCommand : Prop :=
  (∀ (s : State) (c : BitVec 32) (rest : List HostTransaction) (i : Instr),
    s.pending = .hcmd c :: rest → decode c = .ok i → step s = exec i (s.answered rest .completion)) ∧
  (∀ (s : State) (tr : HostTransaction) (rest : List HostTransaction), s.pending = tr :: rest →
    step s = .next { toMwu := (s.toMwu.perform tr).1, pending := rest, reply := some (s.toMwu.perform tr).2 }) ∧
  (∀ s : State, s.pending = [] → step s = .next s) ∧
  (∀ (s : State) (w : Nat) (i : Instr), decodeTableWord 32 w = some i →
    step (s.withFetchWord 32 w) = exec i (s.answer .completion))

/-- Words that decode to the commands they stand for, one of each format each family has: those the spec writes out
(95_test_vectors.md section 9, which has none of the bitwise family), and NOT V1, V2 and AND, OR and XOR V3, V1, V2 made
up from the fields of R51 and the opcodes of R54. -/
def Obligations.KnownCommandWordsDecode : Prop :=
  decode 0x00010308#32 = .ok (.shl 3 0 1) ∧ decode 0x00023409#32 = .ok (.shr 4 3 2) ∧
    decode 0x00010213#32 = .ok (.add 2 0 1) ∧ decode 0x00012314#32 = .ok (.sub 3 2 1) ∧
    decode 0x00002410#32 = .ok (.neg 4 2) ∧ decode 0x00011315#32 = .ok (.mul 3 1 1) ∧
    decode 0x00003516#32 = .ok (.bitlen 5 3) ∧ decode 0x00001212#32 = .ok (.dec 2 1) ∧
    decode 0x00024022#32 = .ok (.lt 4 2) ∧ decode 0x00005020#32 = .ok (.eq 5 0) ∧
    decode 0x00002101#32 = .ok (.not 1 2) ∧ decode 0x00021302#32 = .ok (.and 3 1 2) ∧
    decode 0x00021303#32 = .ok (.or 3 1 2) ∧ decode 0x00021304#32 = .ok (.xor 3 1 2)

/-- Every command, at every register index, is what its word decodes to. -/
def Obligations.DecodeOfEncodeIsTheCommand : Prop := ∀ i : Instr, decode (encode i) = .ok i

/-- Every word that decodes is the word of the command it decodes to: "every legal word [has] one meaning" (D9). -/
def Obligations.EncodeOfDecodeIsTheWord : Prop :=
  ∀ (c : BitVec 32) (i : Instr), decode c = .ok i → encode i = c

/-- R55: a word is a command exactly when it matches a row under the row's mask, and then only that row, which is the
row of the command it decodes to; a word with the opcode of a row that fails the zero-field test decodes to
RESERVED_FIELD and to no command (that such a word raises is `ReservedFieldRaises`). -/
def Obligations.WordIsACommandExactlyWhenItMatchesARow : Prop :=
  ∀ c : BitVec 32,
    ((∃ i, decode c = .ok i) ↔ ∃ row ∈ tableRows, c &&& row.2 = row.1) ∧
    (∀ r₁ ∈ tableRows, ∀ r₂ ∈ tableRows, c &&& r₁.2 = r₁.1 → c &&& r₂.2 = r₂.1 → r₁ = r₂) ∧
    (∀ i, decode c = .ok i → c &&& i.format.mask = BitVec.ofNat 32 i.opcode) ∧
    ((∃ row ∈ tableRows, c &&& 0xFF#32 = row.1) → (∀ row ∈ tableRows, c &&& row.2 ≠ row.1) →
      decode c = .error .reservedField)

/-- R56: the illegal opcodes are those listed, and a command with one records ILLEGAL_OPCODE and does nothing else. -/
def Obligations.IllegalOpcodeRaises : Prop :=
  ∀ c : BitVec 32,
    (decode c = .error .illegalOpcode ↔
      let op := (c.extractLsb' 0 8).toNat
      op = 0x00 ∨ (0x05 ≤ op ∧ op ≤ 0x07) ∨ (0x0A ≤ op ∧ op ≤ 0x0F) ∨ (0x17 ≤ op ∧ op ≤ 0x1F) ∨
        (0x26 ≤ op ∧ op ≤ 0xFF)) ∧
    ∀ (s : State) (rest : List HostTransaction), s.err = false → s.pending = .hcmd c :: rest →
      decode c = .error .illegalOpcode →
      step s = .next ((s.answered rest .completion).withError .illegalOpcode)

/-- R57: a legal opcode with bits 31:20 or an unused register field not 0 records RESERVED_FIELD and does nothing
else. -/
def Obligations.ReservedFieldRaises : Prop :=
  ∀ (c : BitVec 32) (i : Instr), i.opcode = (c.extractLsb' 0 8).toNat →
    (c.extractLsb' 20 12 ≠ 0 ∨ (i.format = .rr ∧ c.extractLsb' 16 4 ≠ 0) ∨
      (i.format = .cmp ∧ c.extractLsb' 8 4 ≠ 0)) →
    ∀ (s : State) (rest : List HostTransaction), s.err = false → s.pending = .hcmd c :: rest →
      step s = .next ((s.answered rest .completion).withError .reservedField)

/-! ### The invariant and the errors -/

/-- Every step keeps every register that holds a value normalized and within the capacity (R21, R23), and CAUSE 0
exactly while ERR = 0 (R30); and so does every transaction with an MWU of any legal configuration. -/
def Obligations.StepKeepsTheMachineLegal : Prop :=
  (∀ s t : State, s.toMwu.Legal → step s = .next t → t.toMwu.Legal) ∧
  ∀ (cfg : Config) (u : Mwu cfg) (tr : Transaction cfg.wordBits), cfg.Legal → u.Legal → (u.perform tr).1.Legal

/-- R108 and R109: an error is recorded if it is the first since reset; a later one changes nothing, nor does an HREAD
that would raise. -/
def Obligations.OnlyTheFirstErrorIsRecorded : Prop :=
  ∀ (cfg : Config) (u : Mwu cfg),
    (∀ code : Cause, u.err = false → u.raise code = u.withError code) ∧
    (∀ code : Cause, u.err = true → u.raise code = u) ∧
    (∀ first later : Cause, (u.raise first).raise later = u.raise first) ∧
    ∀ i : Reg, u.err = true → (u.perform (.hread i)).1 = u

/-- R110: while ERR = 1 every HCMD and HWRITE is discarded, HREAD, HREADSTATUS and HREADVALID are serviced as usual
(an HREAD with no value to return answers so and raises nothing), and RESET is serviced. The answers `completion` to a
discarded HWRITE or HCMD, and `error` to an HREAD while ERR = 1, are the model's choice (log 6). -/
def Obligations.UnitInErrorOnlyAnswersReads : Prop :=
  ∀ (s : State) (rest : List HostTransaction), s.err = true →
    (∀ c, s.pending = .hcmd c :: rest → step s = .next (s.answered rest .completion)) ∧
    (∀ i sign words, s.pending = .hwrite i sign words :: rest → step s = .next (s.answered rest .completion)) ∧
    (∀ (i : Reg) (p : Value), s.pending = .hread i :: rest → s.reg i = some p →
      step s = .next (s.answered rest (.value p.sign p.words.length p.words))) ∧
    (∀ i : Reg, s.pending = .hread i :: rest → s.reg i = none → step s = .next (s.answered rest .error)) ∧
    (s.pending = .hreadStatus :: rest → step s = .next (s.answered rest (.status s.statusWord))) ∧
    (s.pending = .hreadValid :: rest → step s = .next (s.answered rest (.valid s.validWord))) ∧
    (s.pending = .reset :: rest → ∃ t, step s = .next t ∧ t.err = false)

/-- A unit in error stays as it is, registers and STATUS, through any number of steps in which no RESET is issued
(R29, R110). -/
def Obligations.ErrorSurvivesEveryRunWithoutReset : Prop :=
  ∀ (k : Nat) (s t : State), s.InError → Transaction.reset ∉ s.pending →
    Host.Core.run Sys2Proof.core k s = .next t → SameUnit s t ∧ t.InError

/-- R26: a command that names as a source a register holding no value records UNWRITTEN and does nothing else; an
HREAD of one records UNWRITTEN and returns no data (the answer `error`: log 6). -/
def Obligations.UnwrittenRegisterRaises : Prop :=
  (∀ (i : Instr) (r : Reg) (s : State), s.err = false → r ∈ i.sources → s.reg r = none →
    exec i s = .next (s.withError .unwritten)) ∧
  ∀ (r : Reg) (s : State), s.err = false → s.reg r = none →
    perform (.hread r) s = .next ((s.withError .unwritten).answer .error)

/-- On a unit of any legal configuration an index from NUM_VREG up records REG_RANGE, before anything about the registers
is looked at (R58, R97, R98, R107, R111), and it is "never raised when NUM_VREG = 16" (R107), as on this hardware: no
index is 16 or more (log 15, DEDUCED). The answer `error` to the HWRITE and the HREAD is the model's choice (log 6). -/
def Obligations.RegisterIndexOutOfRangeRaises : Prop :=
  (∀ (cfg : Config) (u : Mwu cfg), cfg.Legal → u.err = false →
    (∀ i : Instr, (∃ r ∈ i.registers, cfg.numVreg ≤ r.val) → execute i u = u.withError .regRange) ∧
    (∀ (c : BitVec 32) (i : Instr), decode c = .ok i → (∃ r ∈ i.registers, cfg.numVreg ≤ r.val) →
      u.perform (.hcmd c) = (u.withError .regRange, .completion)) ∧
    (∀ (i : Reg) sign words, cfg.numVreg ≤ i.val → u.perform (.hwrite i sign words) = (u.withError .regRange, .error)) ∧
    (∀ i : Reg, cfg.numVreg ≤ i.val → u.perform (.hread i) = (u.withError .regRange, .error)) ∧
    (cfg.numVreg = 16 → ∀ tr, (u.perform tr).1.err = true → (u.perform tr).1.cause ≠ .regRange)) ∧
  ∀ s t : State, s.err = false → step s = .next t → t.err = true → t.cause ≠ .regRange

/-- A result longer than MAX_WORDS records CAPACITY and writes nothing (R58, R84, R97, R107): on a unit of any legal
configuration with a bound of `n` words, a result outside `-2^(W·n) … 2^(W·n) - 1`; and on this hardware each of the
commands that can have one, and an HWRITE. The answer `error` to the HWRITE is the model's choice (log 6). -/
def Obligations.LongResultRaisesCapacity : Prop :=
  (∀ (cfg : Config) (n : Nat) (hn : 0 < n) (u : Mwu cfg), cfg.Legal → cfg.maxWords = .bounded n hn → u.err = false →
    (∀ (law : Int → Int → Int) (d a b : Reg) (x y : BigInt cfg.wordBits),
      d.val < cfg.numVreg → a.val < cfg.numVreg → b.val < cfg.numVreg → u.reg a = some x → u.reg b = some y →
      (law x.val y.val < -(2 ^ (cfg.wordBits * n) : Nat) ∨ ((2 ^ (cfg.wordBits * n) : Nat) : Int) ≤ law x.val y.val) →
      commandRRR law d a b u = u.withError .capacity) ∧
    (∀ (law : Int → Int) (d a : Reg) (x : BigInt cfg.wordBits), d.val < cfg.numVreg → a.val < cfg.numVreg →
      u.reg a = some x →
      (law x.val < -(2 ^ (cfg.wordBits * n) : Nat) ∨ ((2 ^ (cfg.wordBits * n) : Nat) : Int) ≤ law x.val) →
      commandRR law d a u = u.withError .capacity) ∧
    ∀ (i : Reg) (p : BigInt cfg.wordBits), i.val < cfg.numVreg →
      (p.val < -(2 ^ (cfg.wordBits * n) : Nat) ∨ ((2 ^ (cfg.wordBits * n) : Nat) : Int) ≤ p.val) →
      u.perform (.hwrite i p.sign p.words) = (u.withError .capacity, .error)) ∧
  (∀ (d a b : Reg) (s : State) (x y : Value), s.err = false → s.reg a = some x → s.reg b = some y →
    (fits Config.hw (canon Config.hw.wordBits (x.val + y.val)) = false →
      exec (.add d a b) s = .next (s.withError .capacity)) ∧
    (fits Config.hw (canon Config.hw.wordBits (x.val - y.val)) = false →
      exec (.sub d a b) s = .next (s.withError .capacity)) ∧
    (fits Config.hw (canon Config.hw.wordBits (x.val * y.val)) = false →
      exec (.mul d a b) s = .next (s.withError .capacity)) ∧
    ∀ n : Nat, y.val = n → fits Config.hw (canon Config.hw.wordBits (x.val * 2 ^ n)) = false →
      exec (.shl d a b) s = .next (s.withError .capacity)) ∧
  (∀ (d a : Reg) (s : State) (x : Value), s.err = false → s.reg a = some x →
    (fits Config.hw (canon Config.hw.wordBits (-x.val)) = false → exec (.neg d a) s = .next (s.withError .capacity)) ∧
    (fits Config.hw (canon Config.hw.wordBits (x.val + 1)) = false →
      exec (.inc d a) s = .next (s.withError .capacity)) ∧
    (fits Config.hw (canon Config.hw.wordBits (x.val - 1)) = false →
      exec (.dec d a) s = .next (s.withError .capacity))) ∧
  ∀ (i : Reg) (p : Value) (s : State), s.err = false → fits Config.hw (canon Config.hw.wordBits p.val) = false →
    perform (.hwrite i p.sign p.words) s = .next ((s.withError .capacity).answer .error)

/-- R112: the state after an error is the state before the erroring transaction with ERR and CAUSE set, the answer to
the host apart; and no transaction but RESET then has any effect on the unit. -/
def Obligations.ErrorsArePrecise : Prop :=
  (∀ (i : Instr) (s t : State), exec i s = .next t → s.err = false → t.err = true →
    t = s.withError t.cause ∧ t.cause ≠ .noError) ∧
  (∀ (tr : HostTransaction) (s t : State), perform tr s = .next t → s.err = false → t.err = true →
    t = { s.withError t.cause with reply := t.reply } ∧ t.cause ≠ .noError) ∧
  ∀ (tr : HostTransaction) (t u : State), t.err = true → tr ≠ .reset → perform tr t = .next u → SameUnit t u

/-- R106, for a unit of any legal configuration with MAX_WORDS = UNBOUNDED: a command whose indices are in range and whose
sources hold values raises no error, and so it writes its result, or F. -/
def Obligations.UnboundedUnitIsTotal : Prop :=
  ∀ (cfg : Config) (u : Mwu cfg), cfg.Legal → cfg.maxWords = .unbounded → u.err = false →
    (∀ i : Instr, i.wellFormedAt cfg.numVreg = true → (∀ r ∈ i.sources, (u.reg r).isSome) →
      (execute i u).err = false ∧ ∀ d, i.dest = some d → ((execute i u).reg d).isSome) ∧
    (∀ (law : Int → Int → Int) (d a b : Reg) (x y : BigInt cfg.wordBits),
      d.val < cfg.numVreg → a.val < cfg.numVreg → b.val < cfg.numVreg → u.reg a = some x → u.reg b = some y →
      (commandRRR law d a b u).reg d = some (canon cfg.wordBits (law x.val y.val))) ∧
    (∀ (law : Int → Int) (d a : Reg) (x : BigInt cfg.wordBits), d.val < cfg.numVreg → a.val < cfg.numVreg →
      u.reg a = some x → (commandRR law d a u).reg d = some (canon cfg.wordBits (law x.val))) ∧
    ∀ (test : Int → Int → Bool) (a b : Reg) (x y : BigInt cfg.wordBits), a.val < cfg.numVreg → b.val < cfg.numVreg →
      u.reg a = some x → u.reg b = some y → (commandCMP test a b u).f = test x.val y.val

/-! ### The bitwise engine -/

/-- NOT (R61) completes on every value register and writes `-x - 1`; F and everything else is unchanged. -/
def Obligations.NotWritesTheComplement : Prop :=
  ∀ (d a : Reg) (s : State) (x : Value), s.err = false → s.reg a = some x → fits Config.hw x = true →
    ∃ (t : State) (p : Value), exec (.not d a) s = .next t ∧ t.reg d = some p ∧ p.Normalized ∧
      p.val = -x.val - 1 ∧ p.sign = !x.sign ∧ OnlyRegisterChanged d s t

/-- AND (R62, R10) completes on all value registers and writes the number whose every bit is the product of the
operands' bits. -/
def Obligations.AndWritesTheBitwiseAnd : Prop :=
  ∀ (d a b : Reg) (s : State) (x y : Value), s.err = false → s.reg a = some x → s.reg b = some y →
    fits Config.hw x = true → fits Config.hw y = true →
    ∃ (t : State) (p : Value), exec (.and d a b) s = .next t ∧ t.reg d = some p ∧ p.Normalized ∧
      (∀ j, bitOf p.val j = bitOf x.val j * bitOf y.val j) ∧ p.sign = (x.sign && y.sign) ∧ OnlyRegisterChanged d s t

/-- OR (R63, R10): a bit is 0 exactly where both operands' bits are. -/
def Obligations.OrWritesTheBitwiseOr : Prop :=
  ∀ (d a b : Reg) (s : State) (x y : Value), s.err = false → s.reg a = some x → s.reg b = some y →
    fits Config.hw x = true → fits Config.hw y = true →
    ∃ (t : State) (p : Value), exec (.or d a b) s = .next t ∧ t.reg d = some p ∧ p.Normalized ∧
      (∀ j, bitOf p.val j = max (bitOf x.val j) (bitOf y.val j)) ∧ p.sign = (x.sign || y.sign) ∧
      OnlyRegisterChanged d s t

/-- XOR (R64, R10): a bit is 1 exactly where the operands' bits differ. -/
def Obligations.XorWritesTheBitwiseXor : Prop :=
  ∀ (d a b : Reg) (s : State) (x y : Value), s.err = false → s.reg a = some x → s.reg b = some y →
    fits Config.hw x = true → fits Config.hw y = true →
    ∃ (t : State) (p : Value), exec (.xor d a b) s = .next t ∧ t.reg d = some p ∧ p.Normalized ∧
      (∀ j, bitOf p.val j = (bitOf x.val j + bitOf y.val j) % 2) ∧ p.sign = (x.sign ^^ y.sign) ∧
      OnlyRegisterChanged d s t

/-! ### The shift engine -/

/-- R66: a negative amount gives 0 whatever the shifted value is, with no error. -/
def Obligations.NegativeShiftAmountGivesZero : Prop :=
  ∀ (d a b : Reg) (s : State) (x y : Value), s.err = false → s.reg a = some x → s.reg b = some y → y.val < 0 →
    (∃ t, exec (.shl d a b) s = .next t ∧ t.reg d = some { sign := false, words := [] } ∧
      OnlyRegisterChanged d s t) ∧
    ∃ t, exec (.shr d a b) s = .next t ∧ t.reg d = some { sign := false, words := [] } ∧ OnlyRegisterChanged d s t

/-- SHL (R67) by an amount that is not negative writes `x · 2^n`, where that is within the capacity. -/
def Obligations.ShlWritesTheProductWithAPowerOfTwo : Prop :=
  ∀ (d a b : Reg) (s : State) (x y : Value) (n : Nat), s.err = false → s.reg a = some x → s.reg b = some y →
    y.val = n → fits Config.hw (canon Config.hw.wordBits (x.val * 2 ^ n)) = true →
    ∃ (t : State) (p : Value), exec (.shl d a b) s = .next t ∧ t.reg d = some p ∧ p.Normalized ∧
      p.val = x.val * 2 ^ n ∧ OnlyRegisterChanged d s t

/-- SHR (R68) by an amount that is not negative completes and writes `floor(x / 2^n)`. -/
def Obligations.ShrWritesTheFloorOfTheQuotient : Prop :=
  ∀ (d a b : Reg) (s : State) (x y : Value) (n : Nat), s.err = false → s.reg a = some x → s.reg b = some y →
    y.val = n → fits Config.hw x = true →
    ∃ (t : State) (p : Value), exec (.shr d a b) s = .next t ∧ t.reg d = some p ∧ p.Normalized ∧
      p.val = Int.fdiv x.val (2 ^ n) ∧ OnlyRegisterChanged d s t

/-! ### The arithmetic engine -/

/-- NEG (R77) writes `-x`, where that is within the capacity. -/
def Obligations.NegWritesTheNegation : Prop :=
  ∀ (d a : Reg) (s : State) (x : Value), s.err = false → s.reg a = some x →
    fits Config.hw (canon Config.hw.wordBits (-x.val)) = true →
    ∃ (t : State) (p : Value), exec (.neg d a) s = .next t ∧ t.reg d = some p ∧ p.Normalized ∧ p.val = -x.val ∧
      OnlyRegisterChanged d s t

/-- INC (R78) writes `x + 1`, where that is within the capacity. -/
def Obligations.IncWritesTheSuccessor : Prop :=
  ∀ (d a : Reg) (s : State) (x : Value), s.err = false → s.reg a = some x →
    fits Config.hw (canon Config.hw.wordBits (x.val + 1)) = true →
    ∃ (t : State) (p : Value), exec (.inc d a) s = .next t ∧ t.reg d = some p ∧ p.Normalized ∧ p.val = x.val + 1 ∧
      OnlyRegisterChanged d s t

/-- DEC (R79) writes `x - 1`, where that is within the capacity. -/
def Obligations.DecWritesThePredecessor : Prop :=
  ∀ (d a : Reg) (s : State) (x : Value), s.err = false → s.reg a = some x →
    fits Config.hw (canon Config.hw.wordBits (x.val - 1)) = true →
    ∃ (t : State) (p : Value), exec (.dec d a) s = .next t ∧ t.reg d = some p ∧ p.Normalized ∧ p.val = x.val - 1 ∧
      OnlyRegisterChanged d s t

/-- ADD (R80) writes `x + y`, where that is within the capacity; F is unchanged. -/
def Obligations.AddWritesTheSum : Prop :=
  ∀ (d a b : Reg) (s : State) (x y : Value), s.err = false → s.reg a = some x → s.reg b = some y →
    fits Config.hw (canon Config.hw.wordBits (x.val + y.val)) = true →
    ∃ (t : State) (p : Value), exec (.add d a b) s = .next t ∧ t.reg d = some p ∧ p.Normalized ∧
      p.val = x.val + y.val ∧ OnlyRegisterChanged d s t

/-- SUB (R81) writes `x - y`, where that is within the capacity, whatever the length of `-y`; F is unchanged. -/
def Obligations.SubWritesTheDifference : Prop :=
  ∀ (d a b : Reg) (s : State) (x y : Value), s.err = false → s.reg a = some x → s.reg b = some y →
    fits Config.hw (canon Config.hw.wordBits (x.val - y.val)) = true →
    ∃ (t : State) (p : Value), exec (.sub d a b) s = .next t ∧ t.reg d = some p ∧ p.Normalized ∧
      p.val = x.val - y.val ∧ OnlyRegisterChanged d s t

/-- MUL (R82, R85) writes `x · y` at every sign combination, where that is within the capacity; F is unchanged. -/
def Obligations.MulWritesTheProduct : Prop :=
  ∀ (d a b : Reg) (s : State) (x y : Value), s.err = false → s.reg a = some x → s.reg b = some y →
    fits Config.hw (canon Config.hw.wordBits (x.val * y.val)) = true →
    ∃ (t : State) (p : Value), exec (.mul d a b) s = .next t ∧ t.reg d = some p ∧ p.Normalized ∧
      p.val = x.val * y.val ∧ OnlyRegisterChanged d s t

/-- BITLEN (R83) completes on every value register: 0 for a value that is not positive, else the least `b ≥ 1` with
`x < 2^b`. -/
def Obligations.BitlenWritesTheBitLength : Prop :=
  ∀ (d a : Reg) (s : State) (x : Value), s.err = false → s.reg a = some x → fits Config.hw x = true →
    ∃ (t : State) (p : Value) (b : Nat), exec (.bitlen d a) s = .next t ∧ t.reg d = some p ∧ p.Normalized ∧
      p.val = b ∧ (x.val ≤ 0 → b = 0) ∧
      (0 < x.val → 1 ≤ b ∧ x.val < 2 ^ b ∧ ∀ c : Nat, 1 ≤ c → x.val < 2 ^ c → b ≤ c) ∧ OnlyRegisterChanged d s t

/-! ### The comparison engine -/

/-- EQ, NE, LT, LE, GT and GE (R89 to R94) complete on all value registers, write F with the comparison of the signed
values and change nothing else. -/
def Obligations.ComparisonsWriteF : Prop :=
  ∀ (a b : Reg) (s : State) (x y : Value), s.err = false → s.reg a = some x → s.reg b = some y →
    (∃ t, exec (.eq a b) s = .next t ∧ (t.f = true ↔ x.val = y.val) ∧ OnlyFlagChanged s t) ∧
    (∃ t, exec (.ne a b) s = .next t ∧ (t.f = true ↔ x.val ≠ y.val) ∧ OnlyFlagChanged s t) ∧
    (∃ t, exec (.lt a b) s = .next t ∧ (t.f = true ↔ x.val < y.val) ∧ OnlyFlagChanged s t) ∧
    (∃ t, exec (.le a b) s = .next t ∧ (t.f = true ↔ x.val ≤ y.val) ∧ OnlyFlagChanged s t) ∧
    (∃ t, exec (.gt a b) s = .next t ∧ (t.f = true ↔ x.val > y.val) ∧ OnlyFlagChanged s t) ∧
    ∃ t, exec (.ge a b) s = .next t ∧ (t.f = true ↔ x.val ≥ y.val) ∧ OnlyFlagChanged s t

/-- R95: exactly one of LT, EQ and GT sets F = 1, and it is the one that matches the sign of `x - y`. -/
def Obligations.ExactlyOneComparisonHolds : Prop :=
  ∀ (a b : Reg) (s : State) (x y : Value), s.err = false → s.reg a = some x → s.reg b = some y →
    ∃ lt eq gt, exec (.lt a b) s = .next lt ∧ exec (.eq a b) s = .next eq ∧ exec (.gt a b) s = .next gt ∧
      ((lt.f = true ∧ eq.f = false ∧ gt.f = false ∧ x.val - y.val < 0) ∨
       (lt.f = false ∧ eq.f = true ∧ gt.f = false ∧ x.val - y.val = 0) ∨
       (lt.f = false ∧ eq.f = false ∧ gt.f = true ∧ x.val - y.val > 0))

/-! ### The representation -/

/-- R14: `canon` has the sign of the value, the least sufficient number of words, and the words of the value;
`normalize` removes extension words from the end and stops at one that is not. -/
def Obligations.CanonicalFormIsLeast : Prop :=
  ∀ W : Nat, LegalWidth W →
    (∀ v : Int,
      let k := (canon W v).words.length
      ((canon W v).sign = true ↔ v < 0) ∧
      (-((2 ^ (W * k) : Nat) : Int) ≤ v ∧ v < ((2 ^ (W * k) : Nat) : Int)) ∧
      (∀ j : Nat, -((2 ^ (W * j) : Nat) : Int) ≤ v → v < ((2 ^ (W * j) : Nat) : Int) → k ≤ j) ∧
      ∀ i : Nat, i < k → ((canon W v).eff i).toNat = v / 2 ^ (W * i) % 2 ^ W) ∧
    ∀ p : BigInt W, p.normalize.sign = p.sign ∧
      (∃ m, p.words = p.normalize.words ++ List.replicate m (extWord W p.sign)) ∧
      p.normalize.words.getLast? ≠ some (extWord W p.sign)

/-- R15: the four facts about canonical forms, and the canonical forms of 0 and -1 (R16). -/
def Obligations.CanonicalFormsAreTheIntegers : Prop :=
  ∀ W : Nat, LegalWidth W →
    (∀ v : Int, (canon W v).Normalized ∧ (canon W v).val = v) ∧
    (∀ p : BigInt W, p.Normalized → canon W p.val = p) ∧
    (∀ p : BigInt W, (p.sign = true ↔ p.val < 0) ∧
      (p.sign = true → -((2 ^ (W * p.words.length) : Nat) : Int) ≤ p.val ∧ p.val ≤ -1) ∧
      (p.sign = false → 0 ≤ p.val ∧ p.val < ((2 ^ (W * p.words.length) : Nat) : Int))) ∧
    (∀ p : BigInt W, p.normalize.val = p.val ∧ p.normalize.sign = p.sign ∧ p.normalize = canon W p.val) ∧
    canon W 0 = { sign := false, words := [] } ∧ canon W (-1) = { sign := true, words := [] }

/-- R87: how long the results of the arithmetic commands can be. -/
def Obligations.ArithmeticResultLengths : Prop :=
  ∀ W : Nat, LegalWidth W → ∀ x y : BigInt W,
    (canon W (x.val + y.val)).words.length ≤ max x.words.length y.words.length + 1 ∧
    (canon W (x.val - y.val)).words.length ≤ max x.words.length y.words.length + 1 ∧
    (canon W (-x.val)).words.length ≤ x.words.length + 1 ∧
    (canon W (x.val + 1)).words.length ≤ x.words.length + 1 ∧
    (canon W (x.val - 1)).words.length ≤ x.words.length + 1 ∧
    (canon W (x.val * y.val)).words.length ≤ x.words.length + y.words.length + 1 ∧
    (x.val ≤ 0 → (canon W (bitlenLaw x.val)).words.length = 0) ∧
    ∀ n : Nat, 0 < x.val → x.words.length ≤ n → W * n < 2 ^ W → (canon W (bitlenLaw x.val)).words.length = 1

/-- The operands at which NEG, INC and DEC run out of a capacity of `n` words (R77, R78, R79), and the amounts from which
SHL of a value other than 0 does (R129): the bound `n > W · MAX_WORDS` is strict. -/
def Obligations.CapacityEdges : Prop :=
  ∀ (cfg : Config) (n : Nat) (hn : 0 < n), cfg.Legal → cfg.maxWords = .bounded n hn →
    ∀ x : BigInt cfg.wordBits, fits cfg x = true →
      (fits cfg (canon cfg.wordBits (-x.val)) = false ↔ x.val = -2 ^ (cfg.wordBits * n)) ∧
      (fits cfg (canon cfg.wordBits (x.val + 1)) = false ↔ x.val = 2 ^ (cfg.wordBits * n) - 1) ∧
      (fits cfg (canon cfg.wordBits (x.val - 1)) = false ↔ x.val = -2 ^ (cfg.wordBits * n)) ∧
      (∀ m : Nat, x.val ≠ 0 → cfg.wordBits * n < m → fits cfg (canon cfg.wordBits (x.val * 2 ^ m)) = false) ∧
      fits cfg (canon cfg.wordBits (-1 * 2 ^ (cfg.wordBits * n))) = true

/-! ### The word algorithms -/

/-- R72: the MSB-isolation cell of R73 meets the contract of the adder cell. -/
def Obligations.AdderCellContract : Prop :=
  ∀ W : Nat, LegalWidth W → ∀ (a b : BitVec W) (cin : Bool),
    a.toNat + b.toNat + cin.toNat = (addCell a b cin).1.toNat + (addCell a b cin).2.toNat * 2 ^ W

/-- R75: after `m` positions the sum is the words so far and `t · 2^(W·m)` with `t = c - sx - sy`, and the extra word
and the result sign stand for `t`. -/
def Obligations.FinalCarryCompletesTheSum : Prop :=
  ∀ W : Nat, LegalWidth W →
    (∀ x y : BigInt W,
      let m := max x.words.length y.words.length
      let r := ripple x y m 0 false
      x.val + y.val = wordsSum r.1 + ((r.2.toNat : Int) - x.sign.toNat - y.sign.toNat) * 2 ^ (W * m)) ∧
    ∀ c sx sy : Bool,
      let e := finalCarry W c sx sy
      BigInt.val { sign := e.1, words := e.2 } = (c.toNat : Int) - sx.toNat - sy.toNat

/-- R74: the ripple adder adds, for all pairs, normalized or not, the empty ones included; its result is normalized. -/
def Obligations.AdderAddsEveryPair : Prop :=
  ∀ W : Nat, LegalWidth W → ∀ x y : BigInt W, (addWords x y).val = x.val + y.val ∧ (addWords x y).Normalized

/-- R76: the increment algorithm adds one; from a normalized operand of sign 0 its result is normalized. -/
def Obligations.IncrementAddsOne : Prop :=
  ∀ W : Nat, LegalWidth W → ∀ x : BigInt W,
    (incWords x).val = x.val + 1 ∧ (x.sign = false → x.Normalized → (incWords x).Normalized)

/-- The word algorithms of NOT, AND, OR and XOR (R61 to R65) give the canonical forms of the value laws, for all pairs. -/
def Obligations.BitwiseWordAlgorithmsMeetTheLaws : Prop :=
  ∀ W : Nat, LegalWidth W → ∀ x y : BigInt W,
    notWords x = canon W (notLaw x.val) ∧ andWords x y = canon W (andLaw x.val y.val) ∧
      orWords x y = canon W (orLaw x.val y.val) ∧ xorWords x y = canon W (xorLaw x.val y.val)

/-- R69 and R70: the single-bit steps double and halve (rounding down), for every pair, normalized or not; the left
step of the empty sequence included. -/
def Obligations.SingleBitShiftSteps : Prop :=
  ∀ W : Nat, LegalWidth W → ∀ x : BigInt W,
    (shl1 x).val = 2 * x.val ∧ (x.words ≠ [] → (shr1 x).val = Int.fdiv x.val 2)

/-- The word algorithms of SHL and SHR (R67, R68) give the canonical forms of the value laws, for all pairs and all
amounts. -/
def Obligations.ShiftWordAlgorithmsMeetTheLaws : Prop :=
  ∀ W : Nat, LegalWidth W → ∀ (x : BigInt W) (n : Int),
    shlWords x n = canon W (shlLaw x.val n) ∧ shrWords x n = canon W (shrLaw x.val n)

/-- R71: the shift laws, and the word step commuting with the bit step. -/
def Obligations.ShiftLaws : Prop :=
  (∀ (x : Int) (n : Nat), shrLaw (shlLaw x n) n = x) ∧
  (∀ (x : Int) (n : Nat), shlLaw x n = x * 2 ^ n ∧ shrLaw x n = Int.fdiv x (2 ^ n)) ∧
  (∀ (x : Int) (n m : Nat), shlLaw x (n + m) = shlLaw (shlLaw x n) m ∧ shrLaw x (n + m) = shrLaw (shrLaw x n) m) ∧
  ∀ W : Nat, LegalWidth W → ∀ x : BigInt W,
    shl1 { x with words := 0 :: x.words } = { x with words := 0 :: (shl1 x).words } ∧
    (shr1 { x with words := x.words.drop 1 }).words = (shr1 x).words.drop 1

/-- The word algorithms of NEG, INC, DEC, ADD, SUB, MUL and BITLEN (R76 to R83) give the canonical forms of the value
laws. -/
def Obligations.ArithmeticWordAlgorithmsMeetTheLaws : Prop :=
  ∀ W : Nat, LegalWidth W → ∀ x y : BigInt W,
    negWords x = canon W (negLaw x.val) ∧ (x.Normalized → incWords x = canon W (incLaw x.val)) ∧
      decWords x = canon W (decLaw x.val) ∧ addWords x y = canon W (addLaw x.val y.val) ∧
      subWords x y = canon W (subLaw x.val y.val) ∧ mulWords x y = canon W (mulLaw x.val y.val) ∧
      (x.Normalized → (bitlenWords x : Int) = bitlenLaw x.val)

/-- The algorithms of EQ and LT (R89, R91), XOR-is-zero and sign-of-subtraction with its short-circuit, give the value
laws; on normalized pairs EQ is structural equality. -/
def Obligations.ComparisonWordAlgorithmsMeetTheLaws : Prop :=
  ∀ W : Nat, LegalWidth W → ∀ x y : BigInt W,
    eqWords x y = eqTest x.val y.val ∧ ltWords x y = ltTest x.val y.val ∧
      (x.Normalized → y.Normalized → (eqWords x y = true ↔ x = y))

/-- R88: the arithmetic laws the source lists, of the word algorithms on what registers hold. -/
def Obligations.ArithmeticLaws : Prop :=
  ∀ W : Nat, LegalWidth W → ∀ x y z : BigInt W, x.Normalized → y.Normalized → z.Normalized →
    addWords x { sign := false, words := [] } = x ∧ addWords x (negWords x) = { sign := false, words := [] } ∧
    addWords x y = addWords y x ∧ addWords (addWords x y) z = addWords x (addWords y z) ∧
    decWords (incWords x) = x ∧ incWords (decWords x) = x ∧
    mulWords x (addWords y z) = addWords (mulWords x y) (mulWords x z) ∧ negWords (negWords x) = x

/-! ### The host's transactions -/

/-- R97: HWRITE stores the normalized form of any raw pair, which has its value and sign, and makes the register valid;
REG_RANGE, CAPACITY and the discarding while ERR = 1 are as the rule has them, whatever the unit's parameters; and an
HWRITE on this hardware does so. What the host is answered is the model's choice (log 6). -/
def Obligations.HwriteStoresTheNormalizedPair : Prop :=
  (∀ (cfg : Config) (u : Mwu cfg) (i : Reg) (sign : Bool) (words : List (BitVec cfg.wordBits)), cfg.Legal →
    let raw : BigInt cfg.wordBits := { sign := sign, words := words }
    (u.err = true → hwrite i sign words u = (u, .completion)) ∧
    (u.err = false → cfg.numVreg ≤ i.val → hwrite i sign words u = (u.withError .regRange, .error)) ∧
    (u.err = false → i.val < cfg.numVreg → fits cfg (canon cfg.wordBits raw.val) = false →
      hwrite i sign words u = (u.withError .capacity, .error)) ∧
    (u.err = false → i.val < cfg.numVreg → fits cfg (canon cfg.wordBits raw.val) = true →
      (hwrite i sign words u).2 = .completion ∧
      ∃ p : BigInt cfg.wordBits, (hwrite i sign words u).1.reg i = some p ∧ p.Normalized ∧ p.val = raw.val ∧
        p.sign = sign ∧ u.OnlyRegisterChanged i (hwrite i sign words u).1)) ∧
  ∀ (s : State) (i : Reg) (sign : Bool) (words : List Word) (rest : List HostTransaction),
    s.pending = .hwrite i sign words :: rest →
    step s = .next { toMwu := (hwrite i sign words s.toMwu).1, pending := rest,
                     reply := some (hwrite i sign words s.toMwu).2 }

/-- R98: HREAD returns the sign, the word count and the words of a valid register, changing nothing, whatever ERR is;
with no value to return it raises and returns no data, REG_RANGE (on a unit with fewer than 16 registers, log 15) before
UNWRITTEN. The answer `error` is the model's choice (log 6). -/
def Obligations.HreadReturnsTheRegister : Prop :=
  (∀ (cfg : Config) (u : Mwu cfg) (i : Reg),
    (cfg.numVreg ≤ i.val → u.perform (.hread i) = (u.raise .regRange, .error)) ∧
    (i.val < cfg.numVreg → u.reg i = none → u.perform (.hread i) = (u.raise .unwritten, .error)) ∧
    ∀ p, u.reg i = some p → u.perform (.hread i) = (u, .value p.sign p.words.length p.words)) ∧
  ∀ (s : State) (i : Reg) (rest : List HostTransaction), s.pending = .hread i :: rest →
    (s.reg i = none → step s = .next ((s.onUnit (·.raise .unwritten)).answered rest .error)) ∧
    ∀ p, s.reg i = some p → step s = .next (s.answered rest (.value p.sign p.words.length p.words))

/-- R100, R101, the layouts they return (R27, R25) and the codes of the causes (R107): STATUS has F in bit 0, ERR in bit 1,
CAUSE in bits 7:4 and 0 in every other bit; VALID has bit i set exactly when V[i] holds a value. -/
def Obligations.StatusAndValidAreReadBack : Prop :=
  ∀ (s : State) (rest : List HostTransaction),
    (s.pending = .hreadStatus :: rest → ∃ w, step s = .next (s.answered rest (.status w)) ∧
      w.getLsbD 0 = s.f ∧ w.getLsbD 1 = s.err ∧
      (s.cause = .noError → w.extractLsb' 4 4 = 0#4) ∧ (s.cause = .illegalOpcode → w.extractLsb' 4 4 = 1#4) ∧
      (s.cause = .reservedField → w.extractLsb' 4 4 = 2#4) ∧ (s.cause = .regRange → w.extractLsb' 4 4 = 3#4) ∧
      (s.cause = .unwritten → w.extractLsb' 4 4 = 4#4) ∧ (s.cause = .capacity → w.extractLsb' 4 4 = 5#4) ∧
      w.extractLsb' 2 2 = 0 ∧ w.extractLsb' 8 24 = 0) ∧
    (s.pending = .hreadValid :: rest → ∃ w, step s = .next (s.answered rest (.valid w)) ∧
      ∀ i : Nat, i < 16 → w.getLsbD i = (s.reg i).isSome)

/-- R122 and R113: RESET, whatever ERR is, leaves the reset state of R37, in which no register can be read; and no
transaction but RESET clears ERR, changes CAUSE once it is set, or makes a register lose its value (R25). That RESET
leaves the host's other transactions is the model's choice (log 7), and so is the answer `error` to an HREAD (log 6). -/
def Obligations.OnlyResetClearsTheUnit : Prop :=
  (∀ (s : State) (rest : List HostTransaction), s.pending = .reset :: rest →
    ∃ t, step s = .next t ∧ SameUnit State.reset t ∧ t.pending = rest ∧
      ∀ i : Reg, ∃ u, perform (.hread i) t = .next u ∧ u.reply = some .error ∧ u.err = true ∧
        u.cause = .unwritten) ∧
  ∀ (tr : HostTransaction) (s t : State), perform tr s = .next t → tr ≠ .reset →
    (s.err = true → t.err = true ∧ t.cause = s.cause) ∧ ∀ i : Nat, (s.reg i).isSome → (t.reg i).isSome

/-! ### Whole-machine rules -/

/-- R28: only a comparison that completes without error writes F; no command reads F; the host reads it in STATUS
bit 0; it is 0 after reset. -/
def Obligations.OnlyComparisonsWriteF : Prop :=
  (∀ (i : Instr) (s t : State), exec i s = .next t → i.format ≠ .cmp → t.f = s.f) ∧
  (∀ (i : Instr) (s t : State), exec i s = .next t → (s.err = true ∨ t.err = true) → t.f = s.f) ∧
  (∀ (tr : HostTransaction) (s t : State), (∀ c, tr ≠ .hcmd c) → tr ≠ .reset → perform tr s = .next t → t.f = s.f) ∧
  (∀ (i : Instr) (s t : State) (g : Bool), exec i s = .next t →
    ∃ u, exec i (s.onUnit (·.setF g)) = .next u ∧ (∀ j : Nat, u.reg j = t.reg j) ∧ u.err = t.err ∧ u.cause = t.cause ∧
      (i.format = .cmp → t.err = false → u.f = t.f)) ∧
  (∀ s : State, s.statusWord.getLsbD 0 = s.f) ∧ State.reset.f = false

/-- R36: a write changes no other register, and a command changes no register but its destination: no source, unless it
is the destination too. -/
def Obligations.CommandsChangeOnlyTheirDestination : Prop :=
  (∀ (cfg : Config) (u : Mwu cfg) (d j : Nat) (p : BigInt cfg.wordBits), j ≠ d → (u.writeReg d p).reg j = u.reg j) ∧
  ∀ (i : Instr) (s t : State), exec i s = .next t → ∀ j : Reg, i.dest ≠ some j → t.reg j = s.reg j

/-- What a command does depends on its sources alone: two units in no error that hold the same in a command's sources
raise the same error or write the same result, whatever else they hold (R58, R59, R33). -/
def Obligations.ResultDependsOnlyOnTheSources : Prop :=
  ∀ (i : Instr) (s₁ s₂ t₁ t₂ : State), s₁.err = false → s₂.err = false →
    (∀ r ∈ i.sources, s₁.reg r = s₂.reg r) → exec i s₁ = .next t₁ → exec i s₂ = .next t₂ →
    t₁.err = t₂.err ∧ (t₁.err = true → t₁.cause = t₂.cause) ∧
      (t₁.err = false → (∀ d : Reg, i.dest = some d → t₁.reg d = t₂.reg d) ∧ (i.dest = none → t₁.f = t₂.f))

/-- R44: reads of STATUS, of VALID and of a valid register have no side effect; an HREAD of a register that holds no
value sets UNWRITTEN; and every transaction other than HCMD and HWRITE is idempotent. -/
def Obligations.ReadsAreIdempotent : Prop :=
  (∀ s t : State, perform .hreadStatus s = .next t → SameUnit s t) ∧
  (∀ s t : State, perform .hreadValid s = .next t → SameUnit s t) ∧
  (∀ (i : Reg) (s t : State), (s.reg i).isSome → perform (.hread i) s = .next t → SameUnit s t) ∧
  (∀ (i : Reg) (s t : State), s.reg i = none → perform (.hread i) s = .next t →
    t.err = true ∧ (s.err = false → t.cause = .unwritten)) ∧
  ∀ (tr : HostTransaction) (s t u : State), (∀ c, tr ≠ .hcmd c) → (∀ i sign words, tr ≠ .hwrite i sign words) →
    perform tr s = .next t → perform tr t = .next u → SameUnit t u

/-! ### Host-side conversions and pseudo-instructions -/

/-- R103 and R104: construction from a native integer is the canonical form of its value, and both of the source's
readings of a signed pattern give it: one sign-extended word for N ≤ W, W-bit chunks for any N. -/
def Obligations.NativeConstruction : Prop :=
  ∀ W : Nat, LegalWidth W → ∀ (N : Nat) (b : BitVec N), 1 ≤ N →
    ((fromSigned W b).val = b.toInt ∧ (fromSigned W b).Normalized ∧ ((fromSigned W b).sign = true ↔ b.toInt < 0)) ∧
    (N ≤ W → fromSigned W b = BigInt.normalize { sign := b.msb, words := [b.signExtend W] }) ∧
    (fromSigned W b = BigInt.normalize
      { sign := b.msb
        words := (List.range ((N + (W - 1)) / W)).map fun i => BitVec.ofInt W (b.toInt / 2 ^ (W * i)) }) ∧
    ((fromUnsigned W b).val = b.toNat ∧ (fromUnsigned W b).Normalized ∧ (fromUnsigned W b).sign = false)

/-- R105: 0 renders as HEX_ZERO; any other value as a minus sign if it is negative, `0x`, and the hexadecimal digits of
its magnitude in HEX_CASE with no leading zero digit. -/
def Obligations.ToHexRendersTheValue : Prop :=
  ∀ W : Nat, LegalWidth W → ∀ (cfg : Config) (x : BigInt W),
    (x.val = 0 → toHex cfg x = match cfg.hexZero with
      | .bare => ['0']
      | .prefixed => ['0', 'x', '0']) ∧
    (x.val ≠ 0 → ∃ ds, toHex cfg x = (if x.val < 0 then ['-'] else []) ++ ['0', 'x'] ++ ds ∧
      ds ≠ [] ∧ ds.head? ≠ some '0' ∧ Asm.readDigits 16 0 ds = some x.val.natAbs ∧
      ∀ c ∈ ds, ('0' ≤ c ∧ c ≤ '9') ∨ (cfg.hexCase = .lower ∧ 'a' ≤ c ∧ c ≤ 'f') ∨
        (cfg.hexCase = .upper ∧ 'A' ≤ c ∧ c ≤ 'F'))

/-- R60: what the commands of each pseudo-instruction leave, from a unit in no error whose source register holds the
normalized value `x`: MOV copies, CLR clears, SETM1 gives -1, POSTINC and POSTDEC copy and then step the source, which
must not be the destination. Nothing else changes, F included. -/
def Obligations.PseudoInstructionsDoWhatTheyName : Prop :=
  ∀ (d a : Reg) (s : State) (x : Value), s.err = false → s.reg a = some x → x.Normalized → fits Config.hw x = true →
    (∃ t, runCommands (Pseudo.mov d a).expand s = .next t ∧ t.reg d = some x ∧ OnlyRegisterChanged d s t) ∧
    (∃ t, runCommands (Pseudo.clr d a).expand s = .next t ∧ t.reg d = some { sign := false, words := [] } ∧
      OnlyRegisterChanged d s t) ∧
    (∃ t, runCommands (Pseudo.setm1 d a).expand s = .next t ∧ t.reg d = some { sign := true, words := [] } ∧
      OnlyRegisterChanged d s t) ∧
    (d ≠ a → fits Config.hw (canon Config.hw.wordBits (x.val + 1)) = true →
      ∃ t p, runCommands (Pseudo.postinc d a).expand s = .next t ∧ t.reg d = some x ∧ t.reg a = some p ∧
        p.Normalized ∧ p.val = x.val + 1 ∧ OnlyRegistersChanged d a s t) ∧
    (d ≠ a → fits Config.hw (canon Config.hw.wordBits (x.val - 1)) = true →
      ∃ t p, runCommands (Pseudo.postdec d a).expand s = .next t ∧ t.reg d = some x ∧ t.reg a = some p ∧
        p.Normalized ∧ p.val = x.val - 1 ∧ OnlyRegistersChanged d a s t)
end

