-- ==== Sys2Proof/Laws/State.lean ====
section
/-! SUPPORT. What each update of the state does to each field, and to each register. -/

namespace Sys2Proof.Machine

variable {cfg : Config} (u : Mwu cfg) (s : State)

/-! ### One lemma per field per update: the MWU -/

@[simp] theorem setF_v (t : Bool) : (u.setF t).v = u.v := rfl
@[simp] theorem setF_f (t : Bool) : (u.setF t).f = t := rfl
@[simp] theorem setF_err (t : Bool) : (u.setF t).err = u.err := rfl
@[simp] theorem setF_cause (t : Bool) : (u.setF t).cause = u.cause := rfl

@[simp] theorem writeReg_v (i : Nat) (p : BigInt cfg.wordBits) : (u.writeReg i p).v = u.v.setIfInBounds i (some p) := rfl
@[simp] theorem writeReg_f (i : Nat) (p : BigInt cfg.wordBits) : (u.writeReg i p).f = u.f := rfl
@[simp] theorem writeReg_err (i : Nat) (p : BigInt cfg.wordBits) : (u.writeReg i p).err = u.err := rfl
@[simp] theorem writeReg_cause (i : Nat) (p : BigInt cfg.wordBits) : (u.writeReg i p).cause = u.cause := rfl

@[simp] theorem withError_v (c : Cause) : (u.withError c).v = u.v := rfl
@[simp] theorem withError_f (c : Cause) : (u.withError c).f = u.f := rfl
@[simp] theorem withError_err (c : Cause) : (u.withError c).err = true := rfl
@[simp] theorem withError_cause (c : Cause) : (u.withError c).cause = c := rfl

@[simp] theorem raise_v (c : Cause) : (u.raise c).v = u.v := by unfold Mwu.raise; split <;> rfl
@[simp] theorem raise_f (c : Cause) : (u.raise c).f = u.f := by unfold Mwu.raise; split <;> rfl
@[simp] theorem raise_err (c : Cause) : (u.raise c).err = true := by
  unfold Mwu.raise; split
  · assumption
  · rfl

theorem raise_cause (c : Cause) : (u.raise c).cause = if u.err then u.cause else c := by
  unfold Mwu.raise; split <;> rfl

@[simp] theorem resetUnit_eq : u.resetUnit = Mwu.reset cfg := rfl
@[simp] theorem reset_v : (Mwu.reset cfg).v = Vector.replicate cfg.numVreg none := rfl
@[simp] theorem reset_f : (Mwu.reset cfg).f = false := rfl
@[simp] theorem reset_err : (Mwu.reset cfg).err = false := rfl
@[simp] theorem reset_cause : (Mwu.reset cfg).cause = .noError := rfl

/-! ### One lemma per field per update: the port -/

@[simp] theorem onUnit_toMwu (g : Mwu Config.hw → Mwu Config.hw) : (s.onUnit g).toMwu = g s.toMwu := rfl
@[simp] theorem onUnit_pending (g : Mwu Config.hw → Mwu Config.hw) : (s.onUnit g).pending = s.pending := rfl
@[simp] theorem onUnit_reply (g : Mwu Config.hw → Mwu Config.hw) : (s.onUnit g).reply = s.reply := rfl

@[simp] theorem answer_toMwu (r : HostReply) : (s.answer r).toMwu = s.toMwu := rfl
@[simp] theorem answer_pending (r : HostReply) : (s.answer r).pending = s.pending := rfl
@[simp] theorem answer_reply (r : HostReply) : (s.answer r).reply = some r := rfl

@[simp] theorem answered_toMwu (rest : List HostTransaction) (r : HostReply) : (s.answered rest r).toMwu = s.toMwu := rfl
@[simp] theorem answered_pending (rest : List HostTransaction) (r : HostReply) : (s.answered rest r).pending = rest := rfl
@[simp] theorem answered_reply (rest : List HostTransaction) (r : HostReply) : (s.answered rest r).reply = some r := rfl

@[simp] theorem issue_toMwu (t : HostTransaction) : (s.issue t).toMwu = s.toMwu := rfl
@[simp] theorem issue_pending (t : HostTransaction) : (s.issue t).pending = t :: s.pending := rfl
@[simp] theorem issue_reply (t : HostTransaction) : (s.issue t).reply = s.reply := rfl

@[simp] theorem transact_toMwu (g : Mwu Config.hw → Mwu Config.hw × HostReply) : (s.transact g).toMwu = (g s.toMwu).1 := rfl
@[simp] theorem transact_pending (g : Mwu Config.hw → Mwu Config.hw × HostReply) : (s.transact g).pending = s.pending := rfl
@[simp] theorem transact_reply (g : Mwu Config.hw → Mwu Config.hw × HostReply) : (s.transact g).reply = some (g s.toMwu).2 := rfl

@[simp] theorem state_withError_toMwu (c : Cause) : (s.withError c).toMwu = s.toMwu.withError c := rfl
@[simp] theorem state_withError_pending (c : Cause) : (s.withError c).pending = s.pending := rfl
@[simp] theorem state_withError_reply (c : Cause) : (s.withError c).reply = s.reply := rfl

@[simp] theorem state_reset_toMwu : State.reset.toMwu = Mwu.reset Config.hw := rfl

/-! ### Registers -/

variable {u}

/-- A register's contents are a function of the field `v`. -/
theorem reg_congr {t : Mwu cfg} (h : t.v = u.v) (i : Nat) : t.reg i = u.reg i := by unfold Mwu.reg; rw [h]

@[simp] theorem reg_setF (t : Bool) (i : Nat) : (u.setF t).reg i = u.reg i := rfl
@[simp] theorem reg_withError (c : Cause) (i : Nat) : (u.withError c).reg i = u.reg i := rfl
@[simp] theorem reg_raise (c : Cause) (i : Nat) : (u.raise c).reg i = u.reg i := reg_congr (raise_v u c) i

@[simp] theorem reg_reset (i : Nat) : (Mwu.reset cfg).reg i = none := by
  simp only [Mwu.reg, reset_v, Vector.getElem?_replicate]
  split <;> rfl

/-- Only the NUM_VREG registers hold values. -/
theorem reg_lt {i : Nat} {p : BigInt cfg.wordBits} (h : u.reg i = some p) : i < cfg.numVreg := by
  by_contra hi
  rw [Mwu.reg, Vector.getElem?_eq_none (by omega)] at h
  cases h

/-- A register write, read back anywhere. -/
theorem reg_writeReg (i j : Nat) (p : BigInt cfg.wordBits) (hi : i < cfg.numVreg) :
    (u.writeReg i p).reg j = if j = i then some p else u.reg j := by
  simp only [Mwu.reg, writeReg_v, Vector.getElem?_setIfInBounds, hi]
  by_cases h : j = i
  · simp [h]
  · simp [h, Ne.symm h]

@[simp] theorem reg_writeReg_self (i : Nat) (p : BigInt cfg.wordBits) (hi : i < cfg.numVreg) :
    (u.writeReg i p).reg i = some p := by
  simp [reg_writeReg i i p hi]

theorem reg_writeReg_ne {i j : Nat} (p : BigInt cfg.wordBits) (h : j ≠ i) : (u.writeReg i p).reg j = u.reg j := by
  simp only [Mwu.reg, writeReg_v, Vector.getElem?_setIfInBounds]
  simp [Ne.symm h]

/-- Two MWUs with the same registers and STATUS are the same. -/
theorem mwu_ext {t : Mwu cfg} (hr : ∀ i : Nat, i < cfg.numVreg → t.reg i = u.reg i) (hf : t.f = u.f) (he : t.err = u.err)
    (hc : t.cause = u.cause) : t = u := by
  cases t; cases u
  simp only at hf he hc
  subst hf he hc
  congr
  ext i hi : 1
  have := hr i hi
  simpa [Mwu.reg, Vector.getElem?_eq_getElem hi] using this

end Sys2Proof.Machine
end

