-- ==== Sys2Proof/Laws/Ops.lean ====
section
/-! SUPPORT. What each shared operation can do, said once: the ends of a command (30_encoding.md R58), the shape
of every meaning, and the step. -/

namespace Sys2Proof.Machine

variable {cfg : Config} {u t : Mwu cfg} {s : State}

theorem raise_of_err (h : u.err = true) (c : Cause) : u.raise c = u := by simp [Mwu.raise, h]

theorem raise_of_not_err (h : u.err = false) (c : Cause) : u.raise c = u.withError c := by
  simp [Mwu.raise, Mwu.withError, h]

/-! ### The ends of a command -/

theorem commandRRR_of_err (h : u.err = true) (law : Int → Int → Int) (d a b : Reg) :
    commandRRR law d a b u = u := by simp [commandRRR, h]

theorem commandRR_of_err (h : u.err = true) (law : Int → Int) (d a : Reg) : commandRR law d a u = u := by
  simp [commandRR, h]

theorem commandCMP_of_err (h : u.err = true) (test : Int → Int → Bool) (a b : Reg) :
    commandCMP test a b u = u := by simp [commandCMP, h]

/-- Everything an RRR command can do. -/
theorem commandRRR_cases (law : Int → Int → Int) (d a b : Reg) (h : commandRRR law d a b u = t) :
    (u.err = true ∧ t = u) ∨
    (u.err = false ∧ indicesInRange cfg [d, a, b] = false ∧ t = u.raise .regRange) ∨
    (u.err = false ∧ indicesInRange cfg [d, a, b] = true ∧ (u.reg a = none ∨ u.reg b = none) ∧
      t = u.raise .unwritten) ∨
    ∃ x y, u.err = false ∧ indicesInRange cfg [d, a, b] = true ∧ u.reg a = some x ∧ u.reg b = some y ∧
      t = u.writeResult d (canon cfg.wordBits (law x.val y.val)) := by
  subst h
  unfold commandRRR
  cases he : u.err
  · cases hr : indicesInRange cfg [d, a, b]
    · simp
    · cases ha : u.reg a
      · simp
      · cases hb : u.reg b <;> simp
  · simp

/-- Everything an RR command can do. -/
theorem commandRR_cases (law : Int → Int) (d a : Reg) (h : commandRR law d a u = t) :
    (u.err = true ∧ t = u) ∨
    (u.err = false ∧ indicesInRange cfg [d, a] = false ∧ t = u.raise .regRange) ∨
    (u.err = false ∧ indicesInRange cfg [d, a] = true ∧ u.reg a = none ∧ t = u.raise .unwritten) ∨
    ∃ x, u.err = false ∧ indicesInRange cfg [d, a] = true ∧ u.reg a = some x ∧
      t = u.writeResult d (canon cfg.wordBits (law x.val)) := by
  subst h
  unfold commandRR
  cases he : u.err
  · cases hr : indicesInRange cfg [d, a]
    · simp
    · cases ha : u.reg a <;> simp
  · simp

/-- Everything a CMP command can do. -/
theorem commandCMP_cases (test : Int → Int → Bool) (a b : Reg) (h : commandCMP test a b u = t) :
    (u.err = true ∧ t = u) ∨
    (u.err = false ∧ indicesInRange cfg [a, b] = false ∧ t = u.raise .regRange) ∨
    (u.err = false ∧ indicesInRange cfg [a, b] = true ∧ (u.reg a = none ∨ u.reg b = none) ∧
      t = u.raise .unwritten) ∨
    ∃ x y, u.err = false ∧ indicesInRange cfg [a, b] = true ∧ u.reg a = some x ∧ u.reg b = some y ∧
      t = u.setF (test x.val y.val) := by
  subst h
  unfold commandCMP
  cases he : u.err
  · cases hr : indicesInRange cfg [a, b]
    · simp
    · cases ha : u.reg a
      · simp
      · cases hb : u.reg b <;> simp
  · simp

/-- An RRR command with nothing against it writes the canonical form of its law. -/
theorem commandRRR_completes (law : Int → Int → Int) {d a b : Reg} {x y : BigInt cfg.wordBits} (he : u.err = false)
    (hr : indicesInRange cfg [d, a, b] = true) (hx : u.reg a = some x) (hy : u.reg b = some y)
    (hf : fits cfg (canon cfg.wordBits (law x.val y.val)) = true) :
    commandRRR law d a b u = u.writeReg d (canon cfg.wordBits (law x.val y.val)) := by
  simp [commandRRR, Mwu.writeResult, he, hr, hx, hy, hf]

/-- An RR command with nothing against it writes the canonical form of its law. -/
theorem commandRR_completes (law : Int → Int) {d a : Reg} {x : BigInt cfg.wordBits} (he : u.err = false)
    (hr : indicesInRange cfg [d, a] = true) (hx : u.reg a = some x)
    (hf : fits cfg (canon cfg.wordBits (law x.val)) = true) :
    commandRR law d a u = u.writeReg d (canon cfg.wordBits (law x.val)) := by
  simp [commandRR, Mwu.writeResult, he, hr, hx, hf]

/-- A CMP command with nothing against it writes F. -/
theorem commandCMP_completes (test : Int → Int → Bool) {a b : Reg} {x y : BigInt cfg.wordBits} (he : u.err = false)
    (hr : indicesInRange cfg [a, b] = true) (hx : u.reg a = some x) (hy : u.reg b = some y) :
    commandCMP test a b u = u.setF (test x.val y.val) := by
  simp [commandCMP, he, hr, hx, hy]

/-- The two ends of a value result. -/
theorem writeResult_cases (d : Nat) (p : BigInt cfg.wordBits) (h : u.writeResult d p = t) :
    (fits cfg p = true ∧ t = u.writeReg d p) ∨ (fits cfg p = false ∧ t = u.raise .capacity) := by
  subst h
  unfold Mwu.writeResult
  cases hf : fits cfg p <;> simp

/-! ### Registers of this hardware -/

@[simp] theorem hw_numVreg : Config.hw.numVreg = 16 := rfl

/-- On this hardware every 4-bit index names a register to write. -/
@[simp] theorem reg_writeReg_hw (u : Mwu Config.hw) (d : Reg) (p : Value) : (u.writeReg d p).reg d = some p :=
  reg_writeReg_self d.val p d.isLt

/-- With 16 value registers every 4-bit index is in range: REG_RANGE is "never raised when NUM_VREG = 16" (R107). -/
@[simp] theorem indicesInRange_hw_two (a b : Reg) : indicesInRange Config.hw [a, b] = true := by
  simp [indicesInRange, Config.hw]

@[simp] theorem indicesInRange_hw_three (d a b : Reg) :
    indicesInRange Config.hw [d, a, b] = true := by
  simp [indicesInRange, Config.hw]

theorem indicesInRange_eq_true {rs : List Reg} : indicesInRange cfg rs = true ↔ ∀ r ∈ rs, r.val < cfg.numVreg := by
  simp [indicesInRange]

theorem indicesInRange_eq_false {rs : List Reg} : indicesInRange cfg rs = false ↔ ∃ r ∈ rs, cfg.numVreg ≤ r.val := by
  simp [indicesInRange]

/-- A value of at most one word is within every capacity: MAX_WORDS is positive (R7). -/
theorem fits_of_length_le_one (p : BigInt cfg.wordBits) (h : p.words.length ≤ 1) : fits cfg p = true := by
  simp [fits, capacityAllows, h]

/-- With no bound every value is within the capacity. -/
theorem fits_of_unbounded (p : BigInt cfg.wordBits) (h : cfg.maxWords = .unbounded) : fits cfg p = true := by
  simp [fits, capacityAllows, MaxWords.bound, h]

/-- With a bound of `n` words, the values within the capacity are those of at most `n` words. -/
theorem fits_of_bounded (p : BigInt cfg.wordBits) {n : Nat} (hn : 0 < n) (h : cfg.maxWords = .bounded n hn) :
    fits cfg p = decide (p.words.length ≤ n) := by
  by_cases h1 : p.words.length ≤ 1
  · simp [fits, capacityAllows, h1]; omega
  · simp [fits, capacityAllows, MaxWords.bound, h, h1]

/-- A value no longer than one within the capacity is within it. -/
theorem fits_mono {p q : BigInt cfg.wordBits} (h : q.words.length ≤ p.words.length)
    (hp : fits cfg p = true) : fits cfg q = true := by
  cases hm : cfg.maxWords with
  | unbounded => exact fits_of_unbounded q hm
  | bounded n hn =>
    rw [fits_of_bounded _ hn hm, decide_eq_true_eq] at hp ⊢
    omega

/-! ### The shape of every meaning -/

/-- Every command is one of the three shared executions, over its own registers. -/
theorem exec_shape (i : Instr) :
    (∃ (law : Int → Int → Int) (d a b : Reg), i.dest = some d ∧ i.sources = [a, b] ∧ i.format = .rrr ∧
      (∀ s, exec i s = .next (s.onUnit (commandRRR law d a b))) ∧
      ∀ (cfg : Config) (u : Mwu cfg), execute i u = commandRRR law d a b u) ∨
    (∃ (law : Int → Int) (d a : Reg), i.dest = some d ∧ i.sources = [a] ∧ i.format = .rr ∧
      (∀ s, exec i s = .next (s.onUnit (commandRR law d a))) ∧
      ∀ (cfg : Config) (u : Mwu cfg), execute i u = commandRR law d a u) ∨
    (∃ (test : Int → Int → Bool) (a b : Reg), i.dest = none ∧ i.sources = [a, b] ∧ i.format = .cmp ∧
      (∀ s, exec i s = .next (s.onUnit (commandCMP test a b))) ∧
      ∀ (cfg : Config) (u : Mwu cfg), execute i u = commandCMP test a b u) := by
  cases i with
  | and d a b => exact .inl ⟨andLaw, d, a, b, rfl, rfl, rfl, fun _ => rfl, fun _ _ => rfl⟩
  | or d a b => exact .inl ⟨orLaw, d, a, b, rfl, rfl, rfl, fun _ => rfl, fun _ _ => rfl⟩
  | xor d a b => exact .inl ⟨xorLaw, d, a, b, rfl, rfl, rfl, fun _ => rfl, fun _ _ => rfl⟩
  | shl d a b => exact .inl ⟨shlLaw, d, a, b, rfl, rfl, rfl, fun _ => rfl, fun _ _ => rfl⟩
  | shr d a b => exact .inl ⟨shrLaw, d, a, b, rfl, rfl, rfl, fun _ => rfl, fun _ _ => rfl⟩
  | add d a b => exact .inl ⟨addLaw, d, a, b, rfl, rfl, rfl, fun _ => rfl, fun _ _ => rfl⟩
  | sub d a b => exact .inl ⟨subLaw, d, a, b, rfl, rfl, rfl, fun _ => rfl, fun _ _ => rfl⟩
  | mul d a b => exact .inl ⟨mulLaw, d, a, b, rfl, rfl, rfl, fun _ => rfl, fun _ _ => rfl⟩
  | not d a => exact .inr (.inl ⟨notLaw, d, a, rfl, rfl, rfl, fun _ => rfl, fun _ _ => rfl⟩)
  | neg d a => exact .inr (.inl ⟨negLaw, d, a, rfl, rfl, rfl, fun _ => rfl, fun _ _ => rfl⟩)
  | inc d a => exact .inr (.inl ⟨incLaw, d, a, rfl, rfl, rfl, fun _ => rfl, fun _ _ => rfl⟩)
  | dec d a => exact .inr (.inl ⟨decLaw, d, a, rfl, rfl, rfl, fun _ => rfl, fun _ _ => rfl⟩)
  | bitlen d a => exact .inr (.inl ⟨bitlenLaw, d, a, rfl, rfl, rfl, fun _ => rfl, fun _ _ => rfl⟩)
  | eq a b => exact .inr (.inr ⟨eqTest, a, b, rfl, rfl, rfl, fun _ => rfl, fun _ _ => rfl⟩)
  | ne a b => exact .inr (.inr ⟨neTest, a, b, rfl, rfl, rfl, fun _ => rfl, fun _ _ => rfl⟩)
  | lt a b => exact .inr (.inr ⟨ltTest, a, b, rfl, rfl, rfl, fun _ => rfl, fun _ _ => rfl⟩)
  | le a b => exact .inr (.inr ⟨leTest, a, b, rfl, rfl, rfl, fun _ => rfl, fun _ _ => rfl⟩)
  | gt a b => exact .inr (.inr ⟨gtTest, a, b, rfl, rfl, rfl, fun _ => rfl, fun _ _ => rfl⟩)
  | ge a b => exact .inr (.inr ⟨geTest, a, b, rfl, rfl, rfl, fun _ => rfl, fun _ _ => rfl⟩)

/-- On this hardware a command does to the MWU what it does to one of any configuration, and nothing to the port. -/
theorem exec_eq_execute (i : Instr) (s : State) : exec i s = .next (s.onUnit (execute i)) := by cases i <;> rfl

theorem execute_of_err (i : Instr) (h : u.err = true) : execute i u = u := by
  rcases exec_shape i with ⟨_, _, _, _, -, -, -, -, he⟩ | ⟨_, _, _, -, -, -, -, he⟩ | ⟨_, _, _, -, -, -, -, he⟩
  · rw [he, commandRRR_of_err h]
  · rw [he, commandRR_of_err h]
  · rw [he, commandCMP_of_err h]

/-- Everything a command can do to an MWU of any configuration: nothing in error, an error recorded, a register written,
or F. -/
theorem execute_cases (i : Instr) (u : Mwu cfg) :
    (u.err = true ∧ execute i u = u) ∨
    (u.err = false ∧ (∃ r ∈ i.registers, cfg.numVreg ≤ r.val) ∧ execute i u = u.raise .regRange) ∨
    (u.err = false ∧ (∀ r ∈ i.registers, r.val < cfg.numVreg) ∧ (∃ r ∈ i.sources, u.reg r.val = none) ∧
      execute i u = u.raise .unwritten) ∨
    (u.err = false ∧ (∀ r ∈ i.registers, r.val < cfg.numVreg) ∧ (∀ r ∈ i.sources, u.reg r.val ≠ none) ∧
      (∃ d v, i.dest = some d ∧ fits cfg (canon cfg.wordBits v) = false) ∧ execute i u = u.raise .capacity) ∨
    (∃ (d : Reg) (v : Int), u.err = false ∧ (∀ r ∈ i.registers, r.val < cfg.numVreg) ∧
      (∀ r ∈ i.sources, u.reg r.val ≠ none) ∧ i.dest = some d ∧ fits cfg (canon cfg.wordBits v) = true ∧
      execute i u = u.writeReg d (canon cfg.wordBits v)) ∨
    ∃ b : Bool, u.err = false ∧ (∀ r ∈ i.registers, r.val < cfg.numVreg) ∧ (∀ r ∈ i.sources, u.reg r.val ≠ none) ∧
      i.dest = none ∧ execute i u = u.setF b := by
  rcases exec_shape i with ⟨law, d, a, b, hd, hs, -, -, he⟩ | ⟨law, d, a, hd, hs, -, -, he⟩ |
    ⟨test, a, b, hd, hs, -, -, he⟩
  · rw [he]
    have hR : i.registers = [d, a, b] := by simp [Instr.registers, hd, hs]
    rcases commandRRR_cases law d a b (rfl : commandRRR law d a b u = _) with
      ⟨h, ht⟩ | ⟨h, hr, ht⟩ | ⟨h, hr, hn, ht⟩ | ⟨x, y, h, hr, hx, hy, ht⟩
    · exact .inl ⟨h, ht⟩
    · exact .inr (.inl ⟨h, by rw [hR]; exact indicesInRange_eq_false.mp hr, ht⟩)
    · refine .inr (.inr (.inl ⟨h, by rw [hR]; exact indicesInRange_eq_true.mp hr, ?_, ht⟩))
      rcases hn with hn | hn
      · exact ⟨a, by simp [hs], hn⟩
      · exact ⟨b, by simp [hs], hn⟩
    · have hR' : ∀ r ∈ i.registers, r.val < cfg.numVreg := by rw [hR]; exact indicesInRange_eq_true.mp hr
      rcases writeResult_cases d.val _ (rfl : u.writeResult d.val _ = _) with ⟨hf, hw⟩ | ⟨hf, hw⟩
      · exact .inr (.inr (.inr (.inr (.inl
          ⟨d, law x.val y.val, h, hR', by simp [hs, hx, hy], hd, hf, by rw [ht, hw]⟩))))
      · exact .inr (.inr (.inr (.inl ⟨h, hR', by simp [hs, hx, hy], ⟨d, _, hd, hf⟩, by rw [ht, hw]⟩)))
  · rw [he]
    have hR : i.registers = [d, a] := by simp [Instr.registers, hd, hs]
    rcases commandRR_cases law d a (rfl : commandRR law d a u = _) with
      ⟨h, ht⟩ | ⟨h, hr, ht⟩ | ⟨h, hr, hn, ht⟩ | ⟨x, h, hr, hx, ht⟩
    · exact .inl ⟨h, ht⟩
    · exact .inr (.inl ⟨h, by rw [hR]; exact indicesInRange_eq_false.mp hr, ht⟩)
    · exact .inr (.inr (.inl ⟨h, by rw [hR]; exact indicesInRange_eq_true.mp hr, ⟨a, by simp [hs], hn⟩, ht⟩))
    · have hR' : ∀ r ∈ i.registers, r.val < cfg.numVreg := by rw [hR]; exact indicesInRange_eq_true.mp hr
      rcases writeResult_cases d.val _ (rfl : u.writeResult d.val _ = _) with ⟨hf, hw⟩ | ⟨hf, hw⟩
      · exact .inr (.inr (.inr (.inr (.inl ⟨d, law x.val, h, hR', by simp [hs, hx], hd, hf, by rw [ht, hw]⟩))))
      · exact .inr (.inr (.inr (.inl ⟨h, hR', by simp [hs, hx], ⟨d, _, hd, hf⟩, by rw [ht, hw]⟩)))
  · rw [he]
    have hR : i.registers = [a, b] := by simp [Instr.registers, hd, hs]
    rcases commandCMP_cases test a b (rfl : commandCMP test a b u = _) with
      ⟨h, ht⟩ | ⟨h, hr, ht⟩ | ⟨h, hr, hn, ht⟩ | ⟨x, y, h, hr, hx, hy, ht⟩
    · exact .inl ⟨h, ht⟩
    · exact .inr (.inl ⟨h, by rw [hR]; exact indicesInRange_eq_false.mp hr, ht⟩)
    · refine .inr (.inr (.inl ⟨h, by rw [hR]; exact indicesInRange_eq_true.mp hr, ?_, ht⟩))
      rcases hn with hn | hn
      · exact ⟨a, by simp [hs], hn⟩
      · exact ⟨b, by simp [hs], hn⟩
    · have hR' : ∀ r ∈ i.registers, r.val < cfg.numVreg := by rw [hR]; exact indicesInRange_eq_true.mp hr
      exact .inr (.inr (.inr (.inr (.inr ⟨test x.val y.val, h, hR', by simp [hs, hx, hy], hd, ht⟩))))

/-! ### Transactions and the step -/

/-- Everything an HWRITE can do. -/
theorem hwrite_cases (i : Reg) (sign : Bool) (words : List (BitVec cfg.wordBits)) (u : Mwu cfg) :
    (u.err = true ∧ hwrite i sign words u = (u, .completion)) ∨
    (u.err = false ∧ cfg.numVreg ≤ i.val ∧ hwrite i sign words u = (u.raise .regRange, .error)) ∨
    (u.err = false ∧ i.val < cfg.numVreg ∧ fits cfg (BigInt.normalize { sign := sign, words := words }) = false ∧
      hwrite i sign words u = (u.raise .capacity, .error)) ∨
    (u.err = false ∧ i.val < cfg.numVreg ∧ fits cfg (BigInt.normalize { sign := sign, words := words }) = true ∧
      hwrite i sign words u = (u.writeReg i (BigInt.normalize { sign := sign, words := words }), .completion)) := by
  unfold hwrite
  cases he : u.err
  · by_cases hi : i.val < cfg.numVreg
    · cases hf : fits cfg (BigInt.normalize { sign := sign, words := words }) <;> simp [hi, hf]
    · simp [hi]; omega
  · simp

/-- Everything an HREAD can do. -/
theorem hread_cases (i : Reg) (u : Mwu cfg) :
    (cfg.numVreg ≤ i.val ∧ hread i u = (u.raise .regRange, .error)) ∨
    (i.val < cfg.numVreg ∧ u.reg i = none ∧ hread i u = (u.raise .unwritten, .error)) ∨
    ∃ p, i.val < cfg.numVreg ∧ u.reg i = some p ∧ hread i u = (u, .value p.sign p.words.length p.words) := by
  unfold hread
  by_cases hi : i.val < cfg.numVreg
  · cases hr : u.reg i <;> simp [hi]
  · simp [hi]; omega

/-- Everything an HCMD can do to an MWU of any configuration. -/
theorem executeWord_cases (c : BitVec 32) (u : Mwu cfg) :
    (u.err = true ∧ executeWord c u = u) ∨
    (∃ e, u.err = false ∧ decode c = .error e ∧ executeWord c u = u.raise (causeOfDecodeError e)) ∨
    ∃ i, u.err = false ∧ decode c = .ok i ∧ executeWord c u = execute i u := by
  unfold executeWord
  cases he : u.err
  · cases hd : decode c <;> simp
  · simp

/-- Everything an HCMD can do. -/
theorem hcmd_cases (c : BitVec 32) (s : State) :
    (s.err = true ∧ hcmd c s = .next (s.answer .completion)) ∨
    (∃ e, s.err = false ∧ decode c = .error e ∧
      hcmd c s = .next ((s.onUnit (·.raise (causeOfDecodeError e))).answer .completion)) ∨
    ∃ i, s.err = false ∧ decode c = .ok i ∧ hcmd c s = exec i (s.answer .completion) := by
  unfold hcmd
  cases he : s.err
  · cases hd : decode c <;> simp
  · simp

/-- A transaction with this hardware is that transaction with the MWU of its configuration. -/
theorem perform_eq (tr : HostTransaction) (s : State) : perform tr s = .next (s.transact (·.perform tr)) := by
  cases tr with
  | hcmd c =>
    rcases hcmd_cases c s with ⟨he, h⟩ | ⟨e, he, hd, h⟩ | ⟨i, he, hd, h⟩ <;>
      simp [perform, State.transact, Mwu.perform, executeWord, State.onUnit, State.answer, exec_eq_execute, *]
  | hwrite | hread | hreadStatus | hreadValid | reset => rfl

/-- The step with a transaction issued. -/
theorem step_of_pending {tr : HostTransaction} {rest : List HostTransaction} (h : s.pending = tr :: rest) :
    step s = perform tr { s with pending := rest } := by
  unfold step performNext; rw [h]

/-- The step with a transaction issued, by its parts. -/
theorem step_eq {tr : HostTransaction} {rest : List HostTransaction} (h : s.pending = tr :: rest) :
    step s = .next { toMwu := (s.toMwu.perform tr).1, pending := rest, reply := some (s.toMwu.perform tr).2 } := by
  rw [step_of_pending h, perform_eq]; rfl

theorem step_of_idle (h : s.pending = []) : step s = .next s := by
  unfold step performNext; rw [h]

end Sys2Proof.Machine
end

