-- ==== Sys2Proof/Laws/PerInstr.lean ====
section
/-! SUPPORT. Facts of the encoding, one lemma per command. -/

namespace Sys2Proof.Laws

/-- Every opcode is 8 bits. -/
theorem opcode_lt (i : Instr) : i.opcode < 2 ^ 8 := by cases i <;> simp [Instr.opcode]

/-- The words made of the same opcode and in-range fields are below `2^20`: `res` is 0 (30_encoding.md R51). -/
theorem fieldsWord_toNat (op : Nat) (hop : op < 2 ^ 8) (d a b : Reg) :
    (fieldsWord op d a b).toNat = op + d.val * 2 ^ 8 + a.val * 2 ^ 12 + b.val * 2 ^ 16 := by
  have := d.isLt; have := a.isLt; have := b.isLt
  simp only [fieldsWord, BitVec.toNat_ofNat]
  omega

/-- The opcode field of an encoded command is its opcode, and `res` is 0 (R51, R55). -/
def OpcodeField.Statement (i : Instr) : Prop := opcodeField (encode i) = i.opcode ∧ resField (encode i) = 0

theorem opcodeField_fieldsWord (op : Nat) (hop : op < 2 ^ 8) (d a b : Reg) :
    opcodeField (fieldsWord op d a b) = op ∧ resField (fieldsWord op d a b) = 0 := by
  have := d.isLt; have := a.isLt; have := b.isLt
  simp only [opcodeField, resField, bitField, fieldsWord_toNat op hop]
  omega

namespace OpcodeField

theorem not (d a : Reg) : Statement (.not d a) := opcodeField_fieldsWord _ (opcode_lt _) _ _ _
theorem and (d a b : Reg) : Statement (.and d a b) := opcodeField_fieldsWord _ (opcode_lt _) _ _ _
theorem or (d a b : Reg) : Statement (.or d a b) := opcodeField_fieldsWord _ (opcode_lt _) _ _ _
theorem xor (d a b : Reg) : Statement (.xor d a b) := opcodeField_fieldsWord _ (opcode_lt _) _ _ _
theorem shl (d a b : Reg) : Statement (.shl d a b) := opcodeField_fieldsWord _ (opcode_lt _) _ _ _
theorem shr (d a b : Reg) : Statement (.shr d a b) := opcodeField_fieldsWord _ (opcode_lt _) _ _ _
theorem neg (d a : Reg) : Statement (.neg d a) := opcodeField_fieldsWord _ (opcode_lt _) _ _ _
theorem inc (d a : Reg) : Statement (.inc d a) := opcodeField_fieldsWord _ (opcode_lt _) _ _ _
theorem dec (d a : Reg) : Statement (.dec d a) := opcodeField_fieldsWord _ (opcode_lt _) _ _ _
theorem add (d a b : Reg) : Statement (.add d a b) := opcodeField_fieldsWord _ (opcode_lt _) _ _ _
theorem sub (d a b : Reg) : Statement (.sub d a b) := opcodeField_fieldsWord _ (opcode_lt _) _ _ _
theorem mul (d a b : Reg) : Statement (.mul d a b) := opcodeField_fieldsWord _ (opcode_lt _) _ _ _
theorem bitlen (d a : Reg) : Statement (.bitlen d a) := opcodeField_fieldsWord _ (opcode_lt _) _ _ _
theorem eq (a b : Reg) : Statement (.eq a b) := opcodeField_fieldsWord _ (opcode_lt _) _ _ _
theorem ne (a b : Reg) : Statement (.ne a b) := opcodeField_fieldsWord _ (opcode_lt _) _ _ _
theorem lt (a b : Reg) : Statement (.lt a b) := opcodeField_fieldsWord _ (opcode_lt _) _ _ _
theorem le (a b : Reg) : Statement (.le a b) := opcodeField_fieldsWord _ (opcode_lt _) _ _ _
theorem gt (a b : Reg) : Statement (.gt a b) := opcodeField_fieldsWord _ (opcode_lt _) _ _ _
theorem ge (a b : Reg) : Statement (.ge a b) := opcodeField_fieldsWord _ (opcode_lt _) _ _ _

end OpcodeField

end Sys2Proof.Laws
end

