-- ==== Sys2Proof/Laws/Words.lean ====
section
/-! SUPPORT. The small lemmas of the word constants and of the sum of words (00_scope.md R8, R13). -/

namespace Sys2Proof

variable {W : Nat}

@[simp] theorem allOnes_toNat (W : Nat) : (allOnes W).toNat = 2 ^ W - 1 := by
  have := Nat.two_pow_pos W
  simp [allOnes, Nat.mod_eq_of_lt (by omega : 2 ^ W - 1 < 2 ^ W)]

@[simp] theorem extWord_true (W : Nat) : extWord W true = allOnes W := rfl
@[simp] theorem extWord_false (W : Nat) : extWord W false = 0 := rfl

@[simp] theorem wordsSum_nil : wordsSum ([] : List (BitVec W)) = 0 := rfl

@[simp] theorem wordsSum_cons (w : BitVec W) (ws : List (BitVec W)) :
    wordsSum (w :: ws) = w.toNat + 2 ^ W * wordsSum ws := rfl

theorem wordsSum_append (xs ys : List (BitVec W)) :
    wordsSum (xs ++ ys) = wordsSum xs + 2 ^ (W * xs.length) * wordsSum ys := by
  induction xs with
  | nil => simp
  | cons x xs ih =>
    simp only [List.cons_append, wordsSum_cons, ih, List.length_cons, Nat.mul_add, Nat.mul_one, Nat.pow_add]
    ring

/-- `k` words hold numbers below `2^(W·k)`. -/
theorem wordsSum_lt (ws : List (BitVec W)) : wordsSum ws < 2 ^ (W * ws.length) := by
  induction ws with
  | nil => simp
  | cons w ws ih =>
    have hw := w.isLt
    have : wordsSum ws + 1 ≤ 2 ^ (W * ws.length) := ih
    have := Nat.mul_le_mul_left (2 ^ W) this
    simp only [wordsSum_cons, List.length_cons, Nat.mul_add, Nat.mul_one, Nat.pow_add]
    nlinarith

/-- `n` words of ALL_ONES are one less than `2^(W·n)`. -/
theorem wordsSum_replicate_allOnes (n : Nat) : wordsSum (List.replicate n (allOnes W)) + 1 = 2 ^ (W * n) := by
  induction n with
  | zero => simp
  | succ n ih =>
    have := Nat.two_pow_pos W
    rw [List.replicate_succ, wordsSum_cons, allOnes_toNat, Nat.mul_add, Nat.mul_one, Nat.pow_add, ← ih]
    rw [Nat.add_mul, Nat.one_mul, Nat.mul_comm]
    omega

/-! ### What normalize and canon leave to be read off at once -/

@[simp] theorem normalize_sign (p : BigInt W) : p.normalize.sign = p.sign := rfl
@[simp] theorem canon_sign (v : Int) : (canon W v).sign = decide (v < 0) := rfl
@[simp] theorem canon_length (v : Int) : (canon W v).words.length = wordCount W v := by simp [canon]

/-- The effective word within the sequence, and beyond it. -/
theorem eff_lt (p : BigInt W) {i : Nat} (h : i < p.words.length) : p.eff i = p.words[i] := by
  simp [BigInt.eff, h]

theorem eff_ge (p : BigInt W) {i : Nat} (h : p.words.length ≤ i) : p.eff i = extWord W p.sign := by
  simp [BigInt.eff, h]

/-- A bit count is the least number of bits that hold the number. -/
theorem bitCount_le_iff (m n : Nat) : bitCount m ≤ n ↔ m < 2 ^ n := by
  unfold bitCount
  split
  · simp [*]
  · rename_i h
    rw [Nat.succ_le_iff, Nat.log2_lt h]

theorem bitCount_two_pow (n : Nat) : bitCount (2 ^ n) = n + 1 := by
  have := Nat.two_pow_pos n
  simp [bitCount, Nat.log2_two_pow]

end Sys2Proof
end

