-- ==== Sys2Proof/Tests/Slice0.lean ====
section
/-! SUPPORT. Tests whose expected values stand in the spec (95_test_vectors.md unless another file is named), and for
each statement with hypotheses a witness that meets them. -/

namespace Sys2Proof.Tests

open Sys2Proof.Machine

/-! ### Small states -/

/-- `W = 32`, `NUM_VREG = 16`, `MAX_WORDS = UNBOUNDED`, as the test vectors have it. -/
def unbounded : Config := { wordBits := 32, numVreg := 16, maxWords := .unbounded, hexZero := .bare, hexCase := .lower }

/-- `MAX_WORDS = 1`. -/
def oneWord : Config := { unbounded with maxWords := .bounded 1 (by decide) }

/-- `W = 8`, `MAX_WORDS = 1`. -/
def eightBits : Config := { oneWord with wordBits := 8 }

/-- `NUM_VREG = 4`. -/
def fourRegs : Config := { unbounded with numVreg := 4, hexZero := .prefixed, hexCase := .upper }

/-- An MWU after reset, V0 and V1 written. -/
def loaded (cfg : Config) (x y : BigInt cfg.wordBits) : Mwu cfg := ((Mwu.reset cfg).writeReg 0 x).writeReg 1 y

/-- This hardware after reset, V0 and V1 written. -/
def two (x y : Value) : State := State.reset.onUnit fun _ => loaded Config.hw x y

/-- The state an outcome answers. -/
def nextOf (o : Host.Outcome State Fault Refusal) : Option State :=
  match o with
  | .next s => some s
  | .fault _ => none
  | .refused _ => none

/-- V2 after an RRR command on V0 and V1. -/
def rrr (law : Int → Int → Int) (x y : BigInt 32) : Option (BigInt 32) :=
  (commandRRR law 2 0 1 (loaded unbounded x y)).reg 2

/-- V2 after an RR command on V0. -/
def rr (law : Int → Int) (x : BigInt 32) : Option (BigInt 32) := (commandRR law 2 0 (loaded unbounded x x)).reg 2

/-- F after a CMP command on V0 and V1. -/
def cmp (test : Int → Int → Bool) (x y : BigInt 32) : Bool := (commandCMP test 0 1 (loaded unbounded x y)).f

/-! ### WellFormed: the one check, on each field it reads (NUM_VREG = 4, 00_scope.md R7) -/

theorem test_wellFormed_refuses_rd : (Instr.add 4 0 1).wellFormedAt 4 = false := by decide
theorem test_wellFormed_refuses_rs1 : (Instr.neg 0 15).wellFormedAt 4 = false := by decide
theorem test_wellFormed_refuses_rs2 : (Instr.lt 0 4).wellFormedAt 4 = false := by decide
theorem test_wellFormed_accepts : (Instr.add 3 0 1).wellFormedAt 4 = true ∧ WellFormed (.add 15 15 15) = true := by
  decide

/-! ### Decode: one word for each row, its bits from the "encoding" of R51 and R54 (res, rs2, rs1, rd, opcode) -/

theorem test_decode_not : decode 0b00000000000000000010000100000001#32 = .ok (.not 1 2) := by decide
theorem test_decode_and : decode 0b00000000000000110010000100000010#32 = .ok (.and 1 2 3) := by decide
theorem test_decode_or : decode 0b00000000000011110000100000000011#32 = .ok (.or 8 0 15) := by decide
theorem test_decode_xor : decode 0b00000000000000010010010000000100#32 = .ok (.xor 4 2 1) := by decide
theorem test_decode_shl : decode 0b00000000000000010000001100001000#32 = .ok (.shl 3 0 1) := by decide
theorem test_decode_shr : decode 0b00000000000000100011010000001001#32 = .ok (.shr 4 3 2) := by decide
theorem test_decode_neg : decode 0b00000000000000000010010000010000#32 = .ok (.neg 4 2) := by decide
theorem test_decode_inc : decode 0b00000000000000000100010100010001#32 = .ok (.inc 5 4) := by decide
theorem test_decode_dec : decode 0b00000000000000000001001000010010#32 = .ok (.dec 2 1) := by decide
theorem test_decode_add : decode 0b00000000000001000010010100010011#32 = .ok (.add 5 2 4) := by decide
theorem test_decode_sub : decode 0b00000000000000010010001100010100#32 = .ok (.sub 3 2 1) := by decide
theorem test_decode_mul : decode 0b00000000000000010001001100010101#32 = .ok (.mul 3 1 1) := by decide
theorem test_decode_bitlen : decode 0b00000000000000000011010100010110#32 = .ok (.bitlen 5 3) := by decide
theorem test_decode_eq : decode 0b00000000000000000101000000100000#32 = .ok (.eq 5 0) := by decide
theorem test_decode_ne : decode 0b00000000000000110101000000100001#32 = .ok (.ne 5 3) := by decide
theorem test_decode_lt : decode 0b00000000000000100100000000100010#32 = .ok (.lt 4 2) := by decide
theorem test_decode_le : decode 0b00000000000011110001000000100011#32 = .ok (.le 1 15) := by decide
theorem test_decode_gt : decode 0b00000000000001000011000000100100#32 = .ok (.gt 3 4) := by decide
theorem test_decode_ge : decode 0b00000000000000001000000000100101#32 = .ok (.ge 8 0) := by decide
theorem test_encode : encode (.sub 3 2 1) = 0x00012314#32 ∧ encode (.lt 4 2) = 0x00024022#32 := by decide
theorem test_decodeTableWord : decodeTableWord 32 0x00043024 = some (.gt 3 4) := by decide
theorem test_decode_illegal :
    decode 0#32 = .error .illegalOpcode ∧ decode 0x10000000#32 = .error .illegalOpcode := by decide
theorem test_decode_reserved :
    decode 0x00100213#32 = .error .reservedField ∧ decode 0x00012310#32 = .error .reservedField ∧
      decode 0x00010120#32 = .error .reservedField := by decide

/-! ### The meanings, on the vectors of sections 2 to 5 -/

theorem test_not : rr notLaw ⟨true, [0]⟩ = some ⟨false, [0xFFFFFFFF]⟩ := by decide
theorem test_and : rrr andLaw ⟨true, [0xFFFFFFF0]⟩ ⟨false, [0x12345678, 1]⟩ = some ⟨false, [0x12345670, 1]⟩ := by decide
theorem test_and_empty : rrr andLaw ⟨false, [0, 1]⟩ ⟨false, [0xFFFFFFFF]⟩ = some ⟨false, []⟩ := by decide
theorem test_or : rrr orLaw ⟨true, [0xFFFFFF00]⟩ ⟨false, [0x12345678, 1]⟩ = some ⟨true, [0xFFFFFF78]⟩ := by decide
theorem test_or_minus_one : rrr orLaw ⟨true, [0]⟩ ⟨false, [0xFFFFFFFF]⟩ = some ⟨true, []⟩ := by decide
theorem test_xor : rrr xorLaw ⟨true, []⟩ ⟨false, [0x12345678, 1]⟩ = some ⟨true, [0xEDCBA987, 0xFFFFFFFE]⟩ := by decide +kernel
theorem test_xor_signs : rrr xorLaw ⟨false, [0x80000000]⟩ ⟨true, [0x80000000]⟩ = some ⟨true, [0]⟩ := by decide
theorem test_shl : rrr shlLaw ⟨true, [0x40000000]⟩ ⟨false, [1]⟩ = some ⟨true, [0x80000000, 0xFFFFFFFE]⟩ := by decide
theorem test_shl_negative : rrr shlLaw ⟨false, [5]⟩ ⟨true, []⟩ = some ⟨false, []⟩ := by decide
theorem test_shr : rrr shrLaw ⟨true, [0x76543211, 0xFEDCBA98]⟩ ⟨false, [0x24]⟩ = some ⟨true, [0xFFEDCBA9]⟩ := by decide
theorem test_shr_long_amount : rrr shrLaw ⟨false, [7]⟩ ⟨false, [0, 1]⟩ = some ⟨false, []⟩ := by decide
theorem test_neg : rr negLaw ⟨true, [0]⟩ = some ⟨false, [0, 1]⟩ := by decide
theorem test_inc : rr incLaw ⟨false, [0xFFFFFFFF, 0xFFFFFFFF]⟩ = some ⟨false, [0, 0, 1]⟩ := by decide
theorem test_dec : rr decLaw ⟨true, [0]⟩ = some ⟨true, [0xFFFFFFFF, 0xFFFFFFFE]⟩ := by decide
theorem test_add : rrr addLaw ⟨false, [0x80000000]⟩ ⟨false, [0x81000000]⟩ = some ⟨false, [0x01000000, 1]⟩ := by decide
theorem test_add_minus_ones : rrr addLaw ⟨true, []⟩ ⟨true, []⟩ = some ⟨true, [0xFFFFFFFE]⟩ := by decide
theorem test_sub : rrr subLaw ⟨false, [1]⟩ ⟨true, [0]⟩ = some ⟨false, [1, 1]⟩ := by decide
theorem test_mul : rrr mulLaw ⟨false, [0xFFFFFFFF]⟩ ⟨false, [0xFFFFFFFF]⟩ = some ⟨false, [1, 0xFFFFFFFE]⟩ := by decide
theorem test_mul_signs : rrr mulLaw ⟨true, [0]⟩ ⟨true, [0]⟩ = some ⟨false, [0, 0, 1]⟩ := by decide
theorem test_bitlen : rr bitlenLaw ⟨false, [0x80000000]⟩ = some ⟨false, [0x20]⟩ := by decide
theorem test_bitlen_negative : rr bitlenLaw ⟨true, [0xFFFFFFFB]⟩ = some ⟨false, []⟩ := by decide
theorem test_eq : cmp eqTest ⟨false, []⟩ ⟨true, []⟩ = false ∧ cmp eqTest ⟨false, [5]⟩ ⟨false, [5]⟩ = true := by decide
theorem test_ne : cmp neTest ⟨true, []⟩ ⟨false, []⟩ = true ∧ cmp neTest ⟨false, [5]⟩ ⟨false, [5]⟩ = false := by decide
theorem test_lt : cmp ltTest ⟨true, [0]⟩ ⟨true, []⟩ = true ∧ cmp ltTest ⟨false, []⟩ ⟨true, []⟩ = false := by decide
theorem test_le : cmp leTest ⟨false, [5]⟩ ⟨false, [5]⟩ = true ∧ cmp leTest ⟨false, []⟩ ⟨true, []⟩ = false := by decide
theorem test_gt : cmp gtTest ⟨false, [0, 1]⟩ ⟨false, [0xFFFFFFFF]⟩ = true ∧ cmp gtTest ⟨false, [5]⟩ ⟨false, [5]⟩ = false := by decide
theorem test_ge : cmp geTest ⟨true, []⟩ ⟨true, [0xFFFFFFFE]⟩ = true ∧ cmp geTest ⟨true, [0xFFFFFFFE]⟩ ⟨true, []⟩ = false := by decide

/-- `exec` itself, with a result of one word, which every capacity allows: 3 · -5 = -15 (P3, step 1). -/
theorem test_exec_mul :
    exec (.mul 2 0 1) (two ⟨false, [3]⟩ ⟨true, [0xFFFFFFFB]⟩) =
      .next ((two ⟨false, [3]⟩ ⟨true, [0xFFFFFFFB]⟩).onUnit (·.writeReg 2 ⟨true, [0xFFFFFFF1]⟩)) :=
  congrArg (fun u => Host.Outcome.next ((two ⟨false, [3]⟩ ⟨true, [0xFFFFFFFB]⟩).onUnit fun _ => u))
    (commandRRR_completes (x := ⟨false, [3]⟩) (y := ⟨true, [0xFFFFFFFB]⟩) mulLaw rfl (by decide) (by decide) (by decide)
      (fits_of_length_le_one _ (by decide)))

/-- A destination that is a source: SHL V0, V0, V0 with V0 = 5 gives 160 (section 8). -/
theorem test_rd_is_rs : (commandRRR shlLaw 0 0 0 (loaded unbounded ⟨false, [5]⟩ ⟨false, []⟩)).reg 0 = some ⟨false, [160]⟩ := by
  decide

/-! ### The word algorithms (sections 4.1, 4.2 and 6) -/

theorem test_addCell :
    addCell 0xC0000000#32 0xC0000000#32 false = (0x80000000#32, true) ∧
      addCell 0x80000000#32 0x7FFFFFFF#32 true = (0#32, true) ∧
      addCell 0x80000001#32 0x7FFFFFFF#32 false = (0#32, true) ∧
      addCell 0x7FFFFFFF#32 0x7FFFFFFF#32 true = (0xFFFFFFFF#32, false) := by decide
theorem test_addWords_w8 : addWords (W := 8) ⟨true, [0x80]⟩ ⟨true, [0x80]⟩ = ⟨true, [0x00]⟩ := by decide
theorem test_shlWords_w8 : shlWords (W := 8) ⟨true, []⟩ 1 = ⟨true, [0xFE]⟩ := by decide
theorem test_shrWords_w8 : shrWords (W := 8) ⟨true, [0xCC, 0xED]⟩ 4 = ⟨true, [0xDC, 0xFE]⟩ := by decide
theorem test_xorWords_w8 : xorWords (W := 8) ⟨true, []⟩ ⟨false, [0x34, 0x12]⟩ = ⟨true, [0xCB, 0xED]⟩ := by decide
theorem test_mulWords_w8 : mulWords (W := 8) ⟨true, [0xF0]⟩ ⟨false, [0x10]⟩ = ⟨true, [0x00]⟩ := by decide
theorem test_bitlenWords_w8 : bitlenWords (W := 8) ⟨false, [0x80]⟩ = 8 := by decide
theorem test_decWords : decWords (W := 32) ⟨false, [0, 1]⟩ = ⟨false, [0xFFFFFFFF]⟩ := by decide

/-! ### Errors and transactions (section 8, P5, section 7.1) -/

/-- STATUS after one HCMD. -/
def statusAfter (s : State) (c : Nat) : Option (BitVec 32) := (nextOf (step (s.withFetchWord 32 c))).map (·.statusWord)

theorem test_status_illegal : statusAfter State.reset 0 = some 0x00000012#32 := by decide
theorem test_status_reserved_first : statusAfter State.reset 0x00100002 = some 0x00000022#32 := by decide
theorem test_status_unwritten : statusAfter State.reset 0x00010213 = some 0x00000042#32 := by decide
theorem test_status_eq : statusAfter (two ⟨false, [1]⟩ ⟨false, [1]⟩) 0x00010020 = some 1#32 := by decide
theorem test_status_regRange :
    (commandRRR addLaw 4 0 1 (loaded fourRegs ⟨false, [1]⟩ ⟨false, [1]⟩)).statusWord = 0x00000032#32 := by decide
theorem test_status_capacity :
    (commandRRR addLaw 2 0 1 (loaded oneWord ⟨false, [0xFFFFFFFF]⟩ ⟨false, [1]⟩)).statusWord = 0x00000052#32 ∧
      (commandRRR addLaw 2 0 1 (loaded oneWord ⟨false, [0xFFFFFFFF]⟩ ⟨false, [1]⟩)).reg 2 = none := by decide
theorem test_hwrite_capacity :
    (hwrite 0 false [0, 1] (Mwu.reset oneWord)).1.statusWord = 0x00000052#32 ∧
      (hwrite 0 false [0, 1] (Mwu.reset oneWord)).1.validWord = 0#16 ∧
      (hwrite 0 true [0] (Mwu.reset oneWord)).1.validWord = 1#16 ∧
      (hwrite 0 false [7, 0] (Mwu.reset oneWord)).1.err = false := by decide
theorem test_hwrite_normalizes :
    (hwrite 3 true [5, 0xFFFFFFFF] (Mwu.reset unbounded)).1.reg 3 = some ⟨true, [5]⟩ ∧
      (hwrite 3 true [0xFFFFFFFF, 0xFFFFFFFF] (Mwu.reset unbounded)).1.reg 3 = some ⟨true, []⟩ := by decide

/-- P5, steps 2 to 4: the unit is in error, V0 = 1. -/
def inError : State := State.reset.onUnit fun u => (u.writeReg 0 ⟨false, [1]⟩).raise .illegalOpcode

theorem test_error_discards :
    (nextOf (perform (.hwrite 2 false [5]) inError)).map (fun s => (s.reg 2, s.statusWord)) = some (none, 0x00000012#32) ∧
      (nextOf (perform (.hread 0) inError)).bind (fun s => s.reply) = some (.value false 1 [1]) ∧
      (nextOf (perform (.hread 1) inError)).map (fun s => (s.reply, s.cause)) = some (some .error, .illegalOpcode) := by
  decide
theorem test_reset_clears : (nextOf (perform .reset inError)).map (fun s => (s.statusWord, s.validWord)) = some (0#32, 0#16) := by
  decide
theorem test_valid : (two ⟨false, [1]⟩ ⟨true, []⟩).validWord = 3#16 := by decide

/-! ### Conversions and notation (sections 7.2 and 7.3, 30_encoding.md R60) -/

theorem test_fromSigned : fromSigned 32 0x80#8 = ⟨true, [0xFFFFFF80]⟩ ∧ fromSigned 32 0xFF#8 = ⟨true, []⟩ := by decide
theorem test_fromSigned_wide : fromSigned 32 0x8000000000000000#64 = ⟨true, [0, 0x80000000]⟩ := by decide
theorem test_fromUnsigned : fromUnsigned 32 0x80000000#32 = ⟨false, [0x80000000]⟩ := by decide
theorem test_toHex :
    toHex unbounded (⟨false, [0x01000000, 1]⟩ : Value) = ['0', 'x', '1', '0', '1', '0', '0', '0', '0', '0', '0'] ∧
      toHex unbounded (⟨true, []⟩ : Value) = ['-', '0', 'x', '1'] := by decide
theorem test_toHex_parameters :
    toHex fourRegs (⟨false, [255]⟩ : Value) = ['0', 'x', 'F', 'F'] ∧ toHex fourRegs (⟨false, []⟩ : Value) = ['0', 'x', '0'] := by
  decide
theorem test_assemble_add :
    Asm.assemble 32 ['A', 'D', 'D', ' ', 'v', '2', ',', 'V', '0', ',', ' ', 'V', '1', ' ', ';', 'x'] =
      some [.hcmd 0x00010213#32] := by decide
theorem test_assemble_postinc :
    Asm.assemble 32 ['P', 'o', 's', 't', 'I', 'n', 'c', ' ', 'V', '1', ',', 'V', '0'] =
      some [.hcmd (encode (.or 1 0 0)), .hcmd (encode (.inc 0 0))] := by decide
theorem test_assemble_hwrite :
    Asm.assemble 32 ['H', 'W', 'R', 'I', 'T', 'E', ' ', 'V', '9', ',', '-', '0', 'x', 'F'] = some [.hwrite 9 true [0xFFFFFFF1]] := by
  decide
/-- A raw pair, and a host line in lower case (the model's reading, log 14). -/
theorem test_assemble_raw :
    Asm.assemble 32 (['h', 'w', 'r', 'i', 't', 'e', ' ', 'V', '1', ',', Asm.braceOpen] ++
      ['s', '=', '1', ',', 'w', '=', '[', '0', 'x', 'A', ',', '7', ']', Asm.braceClose]) =
      some [.hwrite 1 true [0xA, 7]] := by decide
theorem test_assemble_commandText : Asm.assemble 32 (Asm.commandText (.ge 15 9)) = some [.hcmd (encode (.ge 15 9))] := by decide

/-! ### Witnesses: states and operands that meet the hypotheses of each statement -/

/-- 2 in V0, -1 in V1: the operands of most witnesses. -/
def operands : State := two ⟨false, [2]⟩ ⟨true, []⟩

theorem witness_operands :
    operands.err = false ∧ operands.reg (0 : Reg).val = some ⟨false, [2]⟩ ∧ operands.reg (1 : Reg).val = some ⟨true, []⟩ ∧
      fits Config.hw (⟨false, [2]⟩ : Value) = true ∧ fits Config.hw (⟨true, []⟩ : Value) = true :=
  ⟨rfl, by decide, by decide, fits_of_length_le_one _ (by decide), fits_of_length_le_one _ (by decide)⟩

theorem witness_NegWritesTheNegation : fits Config.hw (canon 32 (-(2 : Int))) = true := fits_of_length_le_one _ (by decide)
theorem witness_IncWritesTheSuccessor : fits Config.hw (canon 32 (2 + 1 : Int)) = true := fits_of_length_le_one _ (by decide)
theorem witness_DecWritesThePredecessor : fits Config.hw (canon 32 (2 - 1 : Int)) = true := fits_of_length_le_one _ (by decide)
theorem witness_AddWritesTheSum :
    operands.err = false ∧ operands.reg 0 = some ⟨false, [2]⟩ ∧ operands.reg 1 = some ⟨true, []⟩ ∧
      fits Config.hw (canon 32 ((⟨false, [2]⟩ : Value).val + (⟨true, []⟩ : Value).val)) = true :=
  ⟨rfl, by decide, by decide, fits_of_length_le_one _ (by decide)⟩
theorem witness_SubWritesTheDifference :
    fits Config.hw (canon 32 ((⟨false, [2]⟩ : Value).val - (⟨true, []⟩ : Value).val)) = true :=
  fits_of_length_le_one _ (by decide)
theorem witness_MulWritesTheProduct :
    fits Config.hw (canon 32 ((⟨false, [2]⟩ : Value).val * (⟨true, []⟩ : Value).val)) = true :=
  fits_of_length_le_one _ (by decide)
theorem witness_NegativeShiftAmountGivesZero : (⟨true, []⟩ : Value).val < 0 := by decide
/-- The amount 0, where the other clause begins. -/
theorem witness_ShlWritesTheProductWithAPowerOfTwo :
    (two ⟨true, []⟩ ⟨false, []⟩).err = false ∧ (two ⟨true, []⟩ ⟨false, []⟩).reg 0 = some ⟨true, []⟩ ∧
      (two ⟨true, []⟩ ⟨false, []⟩).reg 1 = some ⟨false, []⟩ ∧ (⟨false, []⟩ : Value).val = (0 : Nat) ∧
      fits Config.hw (canon 32 ((⟨true, []⟩ : Value).val * 2 ^ 0)) = true :=
  ⟨rfl, by decide, by decide, by decide, fits_of_length_le_one _ (by decide)⟩
theorem witness_ShrWritesTheFloorOfTheQuotient :
    (two ⟨true, [0]⟩ ⟨false, [2]⟩).err = false ∧ (two ⟨true, [0]⟩ ⟨false, [2]⟩).reg 0 = some ⟨true, [0]⟩ ∧
      (two ⟨true, [0]⟩ ⟨false, [2]⟩).reg 1 = some ⟨false, [2]⟩ ∧ (⟨false, [2]⟩ : Value).val = (2 : Nat) ∧
      fits Config.hw (⟨true, [0]⟩ : Value) = true :=
  ⟨rfl, by decide, by decide, by decide, fits_of_length_le_one _ (by decide)⟩
/-- BITLEN at both sides of its two clauses: 0 and 1. -/
theorem witness_BitlenWritesTheBitLength :
    (⟨false, []⟩ : Value).val ≤ 0 ∧ 0 < (⟨false, [1]⟩ : Value).val ∧ fits Config.hw (⟨false, [1]⟩ : Value) = true :=
  ⟨by decide, by decide, fits_of_length_le_one _ (by decide)⟩

/-- A unit with one transaction issued. -/
def issued (t : HostTransaction) : State := operands.issue t

theorem witness_StepRunsTheIssuedCommand :
    (issued (.hcmd 0x00010213#32)).pending = [.hcmd 0x00010213#32] ∧ decode 0x00010213#32 = .ok (.add 2 0 1) ∧
      State.reset.pending = [] ∧ decodeTableWord 32 0x00010213 = some (.add 2 0 1) := by decide
theorem witness_EncodeOfDecodeIsTheWord : decode 0x00002410#32 = .ok (.neg 4 2) := by decide
theorem witness_WordMatchesARow :
    (0x02#32, Format.rrr.mask) ∈ tableRows ∧ 0x00032102#32 &&& Format.rrr.mask = 0x02#32 ∧
      decode 0x00032102#32 = .ok (.and 1 2 3) ∧
      (∃ row ∈ tableRows, 0x00100002#32 &&& 0xFF#32 = row.1) ∧ (∀ row ∈ tableRows, 0x00100002#32 &&& row.2 ≠ row.1) := by
  exact ⟨by decide, by decide, by decide, ⟨(0x02#32, Format.rrr.mask), by decide, rfl⟩, by simp [tableRows, Format.mask]⟩
/-- Both ends of each range of illegal opcodes, and the legal ones beside them. -/
theorem witness_IllegalOpcodeRaises :
    [0x00, 0x05, 0x07, 0x0A, 0x0F, 0x17, 0x1F, 0x26, 0xFF].all
      (fun op => decide (decode (BitVec.ofNat 32 op) = .error .illegalOpcode)) = true ∧
    [0x01, 0x04, 0x08, 0x09, 0x10, 0x16, 0x20, 0x25].all
      (fun op => decide (decode (BitVec.ofNat 32 op) ≠ .error .illegalOpcode)) = true ∧
    (issued (.hcmd 0#32)).err = false ∧ (issued (.hcmd 0#32)).pending = [.hcmd 0#32] := by decide
theorem witness_ReservedFieldRaises :
    (Instr.add 0 0 0).opcode = (0x00100213#32).toNat % 256 ∧ (0x00100213#32).extractLsb' 20 12 ≠ 0 ∧
      (Instr.neg 0 0).format = .rr ∧ (0x00012310#32).extractLsb' 16 4 ≠ 0 ∧
      (Instr.eq 0 0).format = .cmp ∧ (0x00010120#32).extractLsb' 8 4 ≠ 0 := by decide

theorem operands_legal : operands.toMwu.Legal := by
  constructor
  · intro i p h
    by_cases h1 : i = 1
    · subst h1
      rw [show operands.reg 1 = some ⟨true, []⟩ by decide] at h
      cases h
      exact ⟨by decide, fits_of_length_le_one _ (by decide)⟩
    · by_cases h0 : i = 0
      · subst h0
        rw [show operands.reg 0 = some ⟨false, [2]⟩ by decide] at h
        cases h
        exact ⟨by decide, fits_of_length_le_one _ (by decide)⟩
      · rw [operands, two, onUnit_toMwu, loaded, reg_writeReg_ne _ h1, reg_writeReg_ne _ h0, reg_reset] at h
        cases h
  · exact ⟨fun _ => rfl, fun _ => rfl⟩

theorem witness_StepKeepsTheMachineLegal :
    operands.toMwu.Legal ∧
      step (operands.issue (.hcmd 0x00010022#32)) = .next ((operands.answer .completion).onUnit (·.setF false)) ∧
      eightBits.Legal :=
  ⟨operands_legal, rfl, ⟨by decide, by decide, by decide⟩⟩

theorem witness_error_states :
    inError.err = true ∧ inError.InError ∧ inError.reg 0 = some ⟨false, [1]⟩ ∧ Transaction.reset ∉ inError.pending ∧
      Host.Core.run Sys2Proof.core 1 inError = .next inError ∧
      (inError.issue (.hcmd 0#32)).pending = [.hcmd 0#32] ∧
      (inError.issue (.hwrite 2 false [5])).pending = [.hwrite 2 false [5]] ∧
      (inError.issue (.hread 0)).pending = [.hread 0] ∧ (inError.issue .reset).pending = [.reset] ∧
      (inError.issue (.hread 1)).pending = [.hread 1] ∧ inError.reg 1 = none ∧
      (inError.issue .hreadStatus).pending = [.hreadStatus] ∧ (inError.issue .hreadValid).pending = [.hreadValid] :=
  ⟨by decide, by decide, by decide, by decide, rfl, rfl, rfl, rfl, rfl, rfl, by decide, rfl, rfl⟩

theorem witness_UnwrittenRegisterRaises :
    State.reset.err = false ∧ (1 : Reg) ∈ (Instr.add 2 0 1).sources ∧ State.reset.reg (1 : Reg).val = none := by decide

/-- The first index out of range for NUM_VREG = 4, and NUM_VREG = 16, where there is none. -/
theorem witness_RegisterIndexOutOfRangeRaises :
    fourRegs.Legal ∧ (∃ r ∈ (Instr.add 4 0 1).registers, fourRegs.numVreg ≤ r.val) ∧
      decode 0x00010413#32 = .ok (.add 4 0 1) ∧ (Mwu.reset fourRegs).err = false ∧
      unbounded.Legal ∧ unbounded.numVreg = 16 ∧
      ((Mwu.reset unbounded).perform (.hread 15)).1.err = true ∧
      perform (.hread 15) State.reset = .next ((State.reset.onUnit (·.raise .unwritten)).answer .error) :=
  ⟨⟨by decide, by decide, by decide⟩, by decide, by decide, rfl, ⟨by decide, by decide, by decide⟩, rfl, rfl, rfl⟩

/-- The least and the greatest results that no longer fit one word: 2^32 and -2^32 - 1, and 2^8 at W = 8. -/
theorem witness_LongResultRaisesCapacity :
    oneWord.Legal ∧ oneWord.maxWords = .bounded 1 (by decide) ∧
      ((2 ^ (32 * 1) : Nat) : Int) ≤ addLaw (⟨false, [0xFFFFFFFF]⟩ : Value).val (⟨false, [1]⟩ : Value).val ∧
      decLaw (⟨true, [0]⟩ : Value).val < -(2 ^ (32 * 1) : Nat) ∧
      ((2 ^ (32 * 1) : Nat) : Int) ≤ (⟨false, [0, 1]⟩ : Value).val ∧
      (loaded oneWord ⟨false, [0xFFFFFFFF]⟩ ⟨false, [1]⟩).reg 0 = some ⟨false, [0xFFFFFFFF]⟩ ∧
      eightBits.Legal ∧ ((2 ^ (8 * 1) : Nat) : Int) ≤ addLaw (⟨false, [0xFF]⟩ : BigInt 8).val (⟨false, [1]⟩ : BigInt 8).val :=
  ⟨⟨by decide, by decide, by decide⟩, rfl, by decide, by decide, by decide, by decide, ⟨by decide, by decide, by decide⟩,
    by decide⟩

/-- MAX_WORDS of this hardware is open (log 2), so nothing says that it has a bound; whatever bound `n` it may have, the
register full of ALL_ONES words is within it and its successor is not. -/
theorem witness_LongResultOnThisHardware (n : Nat) (hn : 0 < n) (h : Config.hw.maxWords = .bounded n hn) :
    let x : Value := ⟨false, List.replicate n (allOnes 32)⟩
    (two x x).err = false ∧ (two x x).reg (0 : Reg).val = some x ∧ fits Config.hw x = true ∧
      fits Config.hw (canon Config.hw.wordBits (x.val + 1)) = false := by
  refine ⟨rfl, ?_, ?_, ?_⟩
  · rw [two, onUnit_toMwu, loaded, reg_writeReg_ne _ (by decide)]
    exact reg_writeReg_hw _ 0 _
  · rw [fits_of_bounded _ hn h]; exact decide_eq_true (List.length_replicate ..).le
  · have hv : BigInt.val (⟨false, List.replicate n (allOnes 32)⟩ : BigInt 32) + 1 = ((2 ^ (32 * n) : Nat) : Int) := by
      rw [← wordsSum_replicate_allOnes]; simp [BigInt.val]
    rw [fits_of_bounded _ hn h]
    show decide ((canon 32 (BigInt.val (⟨false, List.replicate n (allOnes 32)⟩ : BigInt 32) + 1)).words.length ≤ n) = false
    rw [hv, canon_length, wordCount, if_neg (Int.natCast_nonneg _).not_gt, Int.toNat_natCast, bitCount_two_pow]
    simp only [decide_eq_false_iff_not]; omega

theorem witness_ErrorsArePrecise :
    exec (.add 2 0 1) State.reset = .next (State.reset.onUnit (·.raise .unwritten)) ∧ State.reset.err = false ∧
      (State.reset.raise .unwritten).err = true ∧
      perform (.hread 3) State.reset = .next ((State.reset.onUnit (·.raise .unwritten)).answer .error) ∧
      perform (.hread 0) inError = .next (inError.answer (.value false 1 [1])) :=
  ⟨rfl, rfl, rfl, rfl, rfl⟩

theorem witness_UnboundedUnitIsTotal :
    unbounded.Legal ∧ unbounded.maxWords = .unbounded ∧ (Instr.add 2 0 1).wellFormedAt unbounded.numVreg = true ∧
      (∀ r ∈ (Instr.add 2 0 1).sources, ((loaded unbounded ⟨false, [2]⟩ ⟨true, []⟩).reg r).isSome) ∧
      (loaded unbounded ⟨false, [2]⟩ ⟨true, []⟩).reg 0 = some ⟨false, [2]⟩ ∧
      (loaded unbounded ⟨false, [2]⟩ ⟨true, []⟩).reg 1 = some ⟨true, []⟩ :=
  ⟨⟨by decide, by decide, by decide⟩, rfl, by decide, by decide, by decide, by decide⟩

theorem witness_widths : LegalWidth 8 ∧ LegalWidth 16 ∧ LegalWidth 32 ∧ LegalWidth 64 := by decide
theorem witness_normalized :
    (⟨true, [0]⟩ : BigInt 8).Normalized ∧ (⟨false, []⟩ : BigInt 8).Normalized ∧ (⟨false, [1]⟩ : BigInt 8).words ≠ [] := by decide
theorem witness_ArithmeticResultLengths :
    0 < (⟨false, [1]⟩ : BigInt 8).val ∧ (⟨false, [1]⟩ : BigInt 8).words.length ≤ 1 ∧ 8 * 1 < 2 ^ 8 ∧
      (⟨false, []⟩ : BigInt 8).val ≤ 0 := by decide
/-- One word of 8 bits: -256, 255, -256 again, and a shift by 9. -/
theorem witness_CapacityEdges :
    eightBits.Legal ∧ eightBits.maxWords = .bounded 1 (by decide) ∧ fits eightBits ⟨true, [0]⟩ = true ∧
      (⟨true, [0]⟩ : BigInt 8).val = -2 ^ (8 * 1) ∧ (⟨false, [255]⟩ : BigInt 8).val = 2 ^ (8 * 1) - 1 ∧
      fits eightBits ⟨false, [255]⟩ = true ∧ (⟨false, [255]⟩ : BigInt 8).val ≠ 0 ∧ 8 * 1 < 9 :=
  ⟨⟨by decide, by decide, by decide⟩, rfl, by decide, by decide, by decide, by decide, by decide, by decide⟩

/-- HWRITE at each end of its clauses: V3 and V4 where NUM_VREG = 4, and 2^32 and -2^32 where MAX_WORDS = 1. -/
theorem witness_HwriteStoresTheNormalizedPair :
    oneWord.Legal ∧ fits oneWord (canon 32 (⟨false, [0, 1]⟩ : BigInt 32).val) = false ∧
      fits oneWord (canon 32 (⟨true, [0]⟩ : BigInt 32).val) = true ∧ fourRegs.Legal ∧
      fourRegs.numVreg ≤ (4 : Reg).val ∧ (3 : Reg).val < fourRegs.numVreg ∧
      (issued (.hwrite 15 true [0])).pending = [.hwrite 15 true [0]] :=
  ⟨⟨by decide, by decide, by decide⟩, by decide, by decide, ⟨by decide, by decide, by decide⟩, by decide, by decide, rfl⟩
theorem witness_HreadReturnsTheRegister :
    fourRegs.numVreg ≤ (4 : Reg).val ∧ (3 : Reg).val < fourRegs.numVreg ∧ (Mwu.reset fourRegs).reg 3 = none ∧
      (loaded fourRegs ⟨true, []⟩ ⟨true, []⟩).reg 1 = some ⟨true, []⟩ ∧
      (issued (.hread 15)).pending = [.hread 15] ∧ (issued (.hread 15)).reg 15 = none ∧
      (issued (.hread 1)).reg 1 = some ⟨true, []⟩ := by decide
/-- A state with each cause. -/
theorem witness_StatusAndValidAreReadBack :
    (issued .hreadStatus).pending = [.hreadStatus] ∧ (issued .hreadValid).pending = [.hreadValid] ∧
      operands.cause = .noError ∧
      [Cause.illegalOpcode, .reservedField, .regRange, .unwritten, .capacity].all
        (fun c => decide ((operands.raise c).cause = c)) = true := by decide
theorem witness_OnlyResetClearsTheUnit :
    (issued .reset).pending = [.reset] ∧ perform .hreadStatus inError = .next (inError.answer (.status inError.statusWord)) ∧
      inError.err = true ∧ (inError.reg 0).isSome = true :=
  ⟨rfl, rfl, rfl, by decide⟩

theorem witness_OnlyComparisonsWriteF :
    exec (.eq 0 0) operands = .next (operands.onUnit (·.setF true)) ∧
      exec (.add 2 0 3) operands = .next (operands.onUnit (·.raise .unwritten)) ∧
      (Instr.add 2 0 3).format ≠ .cmp ∧ (operands.raise .unwritten).err = true ∧
      exec (.eq 0 3) operands = .next (operands.onUnit (·.raise .unwritten)) :=
  ⟨rfl, rfl, by decide, rfl, rfl⟩
theorem witness_CommandsChangeOnlyTheirDestination :
    exec (.mul 2 0 1) (two ⟨false, [3]⟩ ⟨true, [0xFFFFFFFB]⟩) =
      .next ((two ⟨false, [3]⟩ ⟨true, [0xFFFFFFFB]⟩).onUnit (·.writeReg 2 ⟨true, [0xFFFFFFF1]⟩)) ∧
      (Instr.mul 2 0 1).dest ≠ some 0 := ⟨test_exec_mul, by decide⟩
theorem witness_ResultDependsOnlyOnTheSources :
    operands.err = false ∧ (operands.setF true).err = false ∧
      (∀ r ∈ (Instr.eq 0 1).sources, operands.reg r = (operands.setF true).reg r) ∧
      exec (.eq 0 1) operands = .next (operands.onUnit (·.setF false)) ∧
      exec (.eq 0 1) (operands.onUnit (·.setF true)) = .next (operands.onUnit (·.setF false)) :=
  ⟨rfl, rfl, fun _ _ => rfl, rfl, rfl⟩
theorem witness_ReadsAreIdempotent :
    perform (.hread 1) operands = .next (operands.answer (.value true 0 [])) ∧ (operands.reg 1).isSome = true ∧
      operands.reg (2 : Reg).val = none ∧
      perform (.hread 2) operands = .next ((operands.onUnit (·.raise .unwritten)).answer .error) ∧
      perform (.hread 2) ((operands.onUnit (·.raise .unwritten)).answer .error) =
        .next ((operands.onUnit (·.raise .unwritten)).answer .error) :=
  ⟨rfl, by decide, by decide, rfl, rfl⟩

theorem witness_NativeConstruction : 1 ≤ 8 ∧ 8 ≤ 32 ∧ (0x80#8).toInt < 0 := by decide
theorem witness_ToHexRendersTheValue : (⟨false, []⟩ : Value).val = 0 ∧ (⟨true, []⟩ : Value).val ≠ 0 := by decide
theorem witness_PseudoInstructionsDoWhatTheyName :
    operands.err = false ∧ operands.reg (0 : Reg).val = some ⟨false, [2]⟩ ∧ (⟨false, [2]⟩ : Value).Normalized ∧
      fits Config.hw (⟨false, [2]⟩ : Value) = true ∧ (3 : Reg) ≠ 0 ∧
      fits Config.hw (canon 32 ((⟨false, [2]⟩ : Value).val + 1)) = true ∧
      fits Config.hw (canon 32 ((⟨false, [2]⟩ : Value).val - 1)) = true :=
  ⟨rfl, by decide, by decide, fits_of_length_le_one _ (by decide), by decide, fits_of_length_le_one _ (by decide),
    fits_of_length_le_one _ (by decide)⟩

end Sys2Proof.Tests
end

section
/-! PROOFS, the scope rules (00_scope.md R12 to R16): the value of a pair read word by word, what `normalize` removes,
the word count as the least sufficient one, and from these `canon` as the inverse of `val` on normalized pairs. -/

namespace Sys2Proof

variable {W : Nat}

theorem LegalWidth.pos (h : LegalWidth W) : 0 < W := by
  rcases h with rfl | rfl | rfl | rfl <;> decide

/-! ### The value of a pair and its sign (R13, R15) -/

/-- The value of a pair without stored words: all bits are the sign. -/
@[simp] theorem val_nil (s : Bool) : (⟨s, []⟩ : BigInt W).val = if s then -1 else 0 := by
  cases s <;> simp [BigInt.val]

/-- The lowest word is the low digit in base `2^W`. -/
theorem val_cons (s : Bool) (w : BitVec W) (ws : List (BitVec W)) :
    (⟨s, w :: ws⟩ : BigInt W).val = w.toNat + 2 ^ W * (⟨s, ws⟩ : BigInt W).val := by
  have hpow : (2 : Int) ^ (W * (ws.length + 1)) = 2 ^ W * 2 ^ (W * ws.length) := by ring
  cases s
  · simp [BigInt.val]
  · simp only [BigInt.val, wordsSum_cons, List.length_cons, if_true]
    push_cast
    rw [hpow]
    ring

theorem val_range_of_sign (p : BigInt W) (h : p.sign = true) : -(2 ^ (W * p.words.length)) ≤ p.val ∧ p.val ≤ -1 := by
  have hlt : (wordsSum p.words : Int) < 2 ^ (W * p.words.length) := mod_cast wordsSum_lt p.words
  simp only [BigInt.val, h, if_true]
  push_cast
  omega

theorem val_range_of_not_sign (p : BigInt W) (h : p.sign = false) : 0 ≤ p.val ∧ p.val < 2 ^ (W * p.words.length) := by
  have hlt : (wordsSum p.words : Int) < 2 ^ (W * p.words.length) := mod_cast wordsSum_lt p.words
  simp only [BigInt.val, h]
  simpa using hlt

theorem sign_eq_true_iff (p : BigInt W) : p.sign = true ↔ p.val < 0 := by
  cases h : p.sign
  · have := val_range_of_not_sign p h
    simp only [Bool.false_eq_true, false_iff]
    omega
  · have := val_range_of_sign p h
    simp only [true_iff]
    omega

theorem sign_eq_decide (p : BigInt W) : p.sign = decide (p.val < 0) := by
  rw [Bool.eq_iff_iff, decide_eq_true_iff]
  exact sign_eq_true_iff p

/-- A pair of `k` words is within the range of `k` words, whatever its sign. -/
theorem val_range (p : BigInt W) : -(2 ^ (W * p.words.length)) ≤ p.val ∧ p.val < 2 ^ (W * p.words.length) := by
  have hpos : (0 : Int) < 2 ^ (W * p.words.length) := by positivity
  cases h : p.sign
  · have := val_range_of_not_sign p h
    omega
  · have := val_range_of_sign p h
    omega

/-! ### The words of a value (R12, R14) -/

theorem val_div_word (s : Bool) (w : BitVec W) (ws : List (BitVec W)) :
    (⟨s, w :: ws⟩ : BigInt W).val / 2 ^ W = (⟨s, ws⟩ : BigInt W).val := by
  have hw : (w.toNat : Int) < 2 ^ W := mod_cast w.isLt
  rw [val_cons, Int.add_mul_ediv_left _ _ (by positivity), Int.ediv_eq_zero_of_lt (Int.natCast_nonneg _) hw, zero_add]

/-- A pair without words is all sign bits, so shifting it right leaves it as it is. -/
theorem val_nil_div (s : Bool) (n : Nat) : (⟨s, []⟩ : BigInt W).val / 2 ^ n = (⟨s, []⟩ : BigInt W).val := by
  have hpos : (0 : Int) < 2 ^ n := by positivity
  cases s
  · simp
  · simp [Int.neg_one_ediv, Int.sign_eq_one_of_pos hpos]

/-- Dropping `i` words divides the value by `2^(W·i)`, rounding down. -/
theorem val_div_two_pow (s : Bool) (ws : List (BitVec W)) (i : Nat) :
    (⟨s, ws⟩ : BigInt W).val / 2 ^ (W * i) = (⟨s, ws.drop i⟩ : BigInt W).val := by
  induction i generalizing ws with
  | zero => simp
  | succ i ih =>
    cases ws with
    | nil => rw [val_nil_div, List.drop_nil]
    | cons w ws =>
      rw [Nat.mul_add, Nat.mul_one, Nat.add_comm, pow_add, ← Int.ediv_ediv_of_nonneg (by positivity), val_div_word, ih,
        List.drop_succ_cons]

/-- One stored extension word stands for what an empty pair extends to (R13). -/
theorem val_singleton_extWord (s : Bool) : (⟨s, [extWord W s]⟩ : BigInt W).val = (⟨s, []⟩ : BigInt W).val := by
  have : 1 ≤ 2 ^ W := Nat.one_le_two_pow
  rw [val_cons]
  cases s
  · simp
  · simp [Nat.cast_sub this]
    ring

/-- The extension word is the lowest digit in base `2^W` of a pair without words. -/
theorem extWord_toNat (s : Bool) : ((extWord W s).toNat : Int) = (⟨s, []⟩ : BigInt W).val % 2 ^ W := by
  have hw : ((extWord W s).toNat : Int) < 2 ^ W := mod_cast (extWord W s).isLt
  rw [← val_singleton_extWord, val_cons, Int.add_mul_emod_self_left, Int.emod_eq_of_lt (Int.natCast_nonneg _) hw]

/-- Every effective word, stored or not, is a digit of the value in base `2^W`. -/
theorem eff_toNat (p : BigInt W) (i : Nat) : ((p.eff i).toNat : Int) = p.val / 2 ^ (W * i) % 2 ^ W := by
  obtain ⟨s, ws⟩ := p
  rw [val_div_two_pow]
  rcases Nat.lt_or_ge i ws.length with h | h
  · have hw : ((ws[i]).toNat : Int) < 2 ^ W := mod_cast (ws[i]).isLt
    rw [eff_lt _ h, List.drop_eq_getElem_cons h, val_cons, Int.add_mul_emod_self_left,
      Int.emod_eq_of_lt (Int.natCast_nonneg _) hw]
  · rw [eff_ge _ h, List.drop_eq_nil_of_le h, extWord_toNat]

/-- A value has one pair of each length. -/
theorem eq_of_val_eq_of_length_eq {p q : BigInt W} (hv : p.val = q.val) (hl : p.words.length = q.words.length) :
    p = q := by
  have hs : p.sign = q.sign := by rw [sign_eq_decide, sign_eq_decide, hv]
  have hw : p.words = q.words := by
    refine List.ext_getElem hl fun i hp hq => BitVec.eq_of_toNat_eq ?_
    have : ((p.eff i).toNat : Int) = (q.eff i).toNat := by rw [eff_toNat, eff_toNat, hv]
    rw [eff_lt p hp, eff_lt q hq] at this
    exact_mod_cast this
  obtain ⟨s, ws⟩ := p
  obtain ⟨t, us⟩ := q
  exact congr (congrArg BigInt.mk hs) hw

/-- Beyond a number of words that holds the value, every effective word is the extension word. -/
theorem eff_eq_extWord (p : BigInt W) {i : Nat} (h : -(2 ^ (W * i)) ≤ p.val ∧ p.val < 2 ^ (W * i)) :
    p.eff i = extWord W p.sign := by
  apply BitVec.eq_of_toNat_eq
  have hq : p.val / 2 ^ (W * i) = (⟨p.sign, []⟩ : BigInt W).val := by
    have hpos : (0 : Int) < 2 ^ (W * i) := by positivity
    rw [val_nil, sign_eq_decide]
    by_cases hneg : p.val < 0
    · rw [decide_eq_true hneg, if_pos rfl, Int.ediv_eq_iff_of_pos hpos]
      constructor <;> linarith [h.1, h.2]
    · rw [decide_eq_false hneg]
      exact Int.ediv_eq_zero_of_lt (not_lt.mp hneg) h.2
  have := eff_toNat p i
  rw [hq, ← extWord_toNat] at this
  exact_mod_cast this

/-! ### normalize (R14) -/

theorem normalize_words (p : BigInt W) :
    p.normalize.words = p.words.rdropWhile fun w => decide (w = extWord W p.sign) := rfl

/-- What `normalize` removes is a run of extension words at the end. -/
theorem words_eq_normalize_append (p : BigInt W) :
    ∃ m, p.words = p.normalize.words ++ List.replicate m (extWord W p.sign) := by
  have hrun : ∀ w ∈ p.words.rtakeWhile fun w => decide (w = extWord W p.sign), w = extWord W p.sign :=
    fun w hw => by simpa using List.mem_rtakeWhile_imp hw
  exact ⟨_, by rw [← List.eq_replicate_of_mem hrun, normalize_words, List.rdropWhile_append_rtakeWhile]⟩

theorem normalize_getLast?_ne (p : BigInt W) : p.normalize.words.getLast? ≠ some (extWord W p.sign) := by
  intro h
  have hne : p.normalize.words ≠ [] := fun h' => by simp [h'] at h
  have hlast : p.normalize.words.getLast hne = extWord W p.sign := by
    rwa [List.getLast?_eq_some_getLast hne, Option.some_inj] at h
  exact List.rdropWhile_last_not _ _ hne (decide_eq_true hlast)

theorem normalize_length_le (p : BigInt W) : p.normalize.words.length ≤ p.words.length :=
  (List.rdropWhile_prefix _ _).length_le

theorem normalize_normalized (p : BigInt W) : p.normalize.Normalized :=
  congrArg (BigInt.mk p.sign) (List.rdropWhile_idempotent _ _)

/-- Extension words at the end leave the value (R13). -/
theorem val_append_extWord (s : Bool) (ws : List (BitVec W)) (m : Nat) :
    (⟨s, ws ++ List.replicate m (extWord W s)⟩ : BigInt W).val = (⟨s, ws⟩ : BigInt W).val := by
  induction ws with
  | nil =>
    induction m with
    | zero => simp
    | succ m ih =>
      rw [List.nil_append] at ih
      rw [List.nil_append, List.replicate_succ, val_cons, ih, ← val_cons, val_singleton_extWord]
  | cons w ws ih => rw [List.cons_append, val_cons, ih, val_cons]

@[simp] theorem normalize_val (p : BigInt W) : p.normalize.val = p.val := by
  obtain ⟨m, hm⟩ := words_eq_normalize_append p
  calc p.normalize.val = (⟨p.sign, p.normalize.words ++ List.replicate m (extWord W p.sign)⟩ : BigInt W).val :=
        (val_append_extWord p.sign p.normalize.words m).symm
    _ = p.val := by rw [← hm]

/-- A normalized pair is no longer than any number of words that holds its value: its last word would be an extension
word. -/
theorem length_le_of_normalized {p : BigInt W} (hp : p.Normalized) {j : Nat}
    (h : -(2 ^ (W * j)) ≤ p.val ∧ p.val < 2 ^ (W * j)) : p.words.length ≤ j := by
  by_contra hlt
  have hne : p.words ≠ [] := fun h' => by simp [h'] at hlt
  have hpow : (2 : Int) ^ (W * j) ≤ 2 ^ (W * (p.words.length - 1)) :=
    pow_le_pow_right₀ (by norm_num) (Nat.mul_le_mul_left W (by omega))
  have hlast : p.eff (p.words.length - 1) = extWord W p.sign := eff_eq_extWord p (by omega)
  apply normalize_getLast?_ne p
  rw [hp, List.getLast?_eq_some_getLast hne, List.getLast_eq_getElem, ← eff_lt, hlast]

/-! ### The word count and canon (R14) -/

/-- `wordCount` is the least `k` of R14. -/
theorem wordCount_le_iff (hW : 0 < W) (v : Int) (j : Nat) :
    wordCount W v ≤ j ↔ -(2 ^ (W * j)) ≤ v ∧ v < 2 ^ (W * j) := by
  have hpos : (0 : Int) < 2 ^ (W * j) := by positivity
  have hcast : ((2 ^ (W * j) : Nat) : Int) = 2 ^ (W * j) := by simp
  rw [wordCount, ← Nat.add_sub_assoc hW, ← Nat.ceilDiv_eq_add_pred_div, ceilDiv_le_iff_le_mul hW, bitCount_le_iff]
  split <;> omega

theorem wordCount_range (hW : 0 < W) (v : Int) : -(2 ^ (W * wordCount W v)) ≤ v ∧ v < 2 ^ (W * wordCount W v) :=
  (wordCount_le_iff hW v _).mp le_rfl

/-- The words that `canon` takes from a value within the range of `k` words stand for that value. -/
theorem val_map_ofInt (k : Nat) (v : Int) (h : -(2 ^ (W * k)) ≤ v ∧ v < 2 ^ (W * k)) :
    (⟨decide (v < 0), (List.range k).map fun i => BitVec.ofInt W (v / ((2 ^ (W * i) : Nat) : Int))⟩ : BigInt W).val = v := by
  induction k generalizing v with
  | zero =>
    rw [Nat.mul_zero, pow_zero] at h
    rw [List.range_zero, List.map_nil, val_nil]
    simp only [decide_eq_true_iff]
    split <;> omega
  | succ k ih =>
    have hpos : (0 : Int) < 2 ^ W := by positivity
    have hsign : decide (v < 0) = decide (v / 2 ^ W < 0) :=
      decide_eq_decide.mpr (by rw [← not_le, ← not_le, Int.ediv_nonneg_iff_of_pos hpos])
    have hrange : -(2 ^ (W * k)) ≤ v / 2 ^ W ∧ v / 2 ^ W < 2 ^ (W * k) := by
      rw [Nat.mul_add, Nat.mul_one, pow_add] at h
      rw [Int.le_ediv_iff_mul_le hpos, Int.ediv_lt_iff_lt_mul hpos]
      constructor <;> linarith [h.1, h.2]
    have hdigit : ((BitVec.ofInt W v).toNat : Int) = v % 2 ^ W := by
      rw [BitVec.toNat_ofInt, Int.toNat_of_nonneg (Int.emod_nonneg _ (by positivity))]
      push_cast
      rfl
    have hshift (i : Nat) : v / ((2 ^ (W * (i + 1)) : Nat) : Int) = v / 2 ^ W / ((2 ^ (W * i) : Nat) : Int) := by
      rw [Int.ediv_ediv_of_nonneg hpos.le, Nat.mul_add, Nat.mul_one, Nat.add_comm, pow_add]
      push_cast
      rfl
    rw [List.range_succ_eq_map, List.map_cons, List.map_map, val_cons, hsign]
    simp only [Function.comp_def, hshift, Nat.succ_eq_add_one]
    rw [ih _ hrange, Nat.mul_zero, pow_zero, Nat.cast_one, Int.ediv_one, hdigit, Int.emod_add_mul_ediv]

@[simp] theorem canon_val (hW : 0 < W) (v : Int) : (canon W v).val = v :=
  val_map_ofInt _ v (wordCount_range hW v)

theorem canon_normalized (hW : 0 < W) (v : Int) : (canon W v).Normalized := by
  have hv : (canon W v).normalize.val = v := by rw [normalize_val, canon_val hW]
  refine eq_of_val_eq_of_length_eq (normalize_val _) (le_antisymm (normalize_length_le _) ?_)
  rw [canon_length, wordCount_le_iff hW]
  simpa only [hv] using val_range (canon W v).normalize

/-- A value has one normalized pair. -/
theorem eq_of_val_eq_of_normalized {p q : BigInt W} (hp : p.Normalized) (hq : q.Normalized) (h : p.val = q.val) :
    p = q :=
  eq_of_val_eq_of_length_eq h
    (le_antisymm (length_le_of_normalized hp (h ▸ val_range q)) (length_le_of_normalized hq (h ▸ val_range p)))

theorem normalize_eq_canon (hW : 0 < W) (p : BigInt W) : p.normalize = canon W p.val :=
  eq_of_val_eq_of_normalized (normalize_normalized p) (canon_normalized hW _) (by rw [normalize_val, canon_val hW])

theorem canon_val_of_normalized (hW : 0 < W) {p : BigInt W} (hp : p.Normalized) : canon W p.val = p := by
  rw [← normalize_eq_canon hW, hp]

/-- The words of `canon` are digits of the value in base `2^W`. -/
theorem canon_eff_toNat (hW : 0 < W) (v : Int) (i : Nat) :
    (((canon W v).eff i).toNat : Int) = v / 2 ^ (W * i) % 2 ^ W := by
  rw [eff_toNat, canon_val hW]

theorem nil_normalized (s : Bool) : (⟨s, []⟩ : BigInt W).Normalized := rfl

/-- The pair without words is the canonical form of 0, or of -1 (R16). -/
theorem canon_zero (hW : 0 < W) : canon W 0 = ⟨false, []⟩ := by
  simpa using canon_val_of_normalized hW (nil_normalized false)

theorem canon_neg_one (hW : 0 < W) : canon W (-1) = ⟨true, []⟩ := by
  simpa using canon_val_of_normalized hW (nil_normalized true)

/-! ### The statements of the scope rules -/

/-- Settles O35: `wordCount` is the least sufficient number of words, every effective word is a digit of the value, and
what `normalize` removes is the longest run of extension words at the end. -/
theorem canonicalFormIsLeast : Obligations.CanonicalFormIsLeast := by
  intro W hW
  refine ⟨fun v => ⟨by simp, ?_, ?_, fun i _ => canon_eff_toNat hW.pos v i⟩,
    fun p => ⟨normalize_sign p, words_eq_normalize_append p, normalize_getLast?_ne p⟩⟩
  · rw [canon_length]
    exact_mod_cast wordCount_range hW.pos v
  · intro j hlo hhi
    rw [canon_length, wordCount_le_iff hW.pos]
    exact ⟨mod_cast hlo, mod_cast hhi⟩

/-- Settles O36: `canon` gives a normalized pair of the value, and a value has only one. -/
theorem canonicalFormsAreTheIntegers : Obligations.CanonicalFormsAreTheIntegers := by
  intro W hW
  refine ⟨fun v => ⟨canon_normalized hW.pos v, canon_val hW.pos v⟩, fun p hp => canon_val_of_normalized hW.pos hp,
    fun p => ⟨sign_eq_true_iff p, fun h => ?_, fun h => ?_⟩,
    fun p => ⟨normalize_val p, normalize_sign p, normalize_eq_canon hW.pos p⟩, canon_zero hW.pos, canon_neg_one hW.pos⟩
  · exact_mod_cast val_range_of_sign p h
  · exact_mod_cast val_range_of_not_sign p h

end Sys2Proof
end

section
/-! PROOFS, the state rules (10_state.md): what keeps an MWU legal, the runs of the machine as iterated steps, and
which registers and flags a command reads and writes. -/

namespace Sys2Proof.Machine

variable {cfg : Config} {u : Mwu cfg}

/-! ### The legal states (R21, R23, R30) -/

theorem hw_legal : Config.hw.Legal := ⟨by decide, by decide, by decide⟩

theorem reset_legal (cfg : Config) : (Mwu.reset cfg).Legal where
  registers i p h := by simp at h
  cause := by simp

/-- Recording a cause other than NO_ERROR keeps CAUSE 0 exactly while ERR = 0. -/
theorem Mwu.Legal.raise (hu : u.Legal) {c : Cause} (hc : c ≠ .noError) : (u.raise c).Legal where
  registers i p h := hu.registers i p (by simpa using h)
  cause := by
    cases he : u.err
    · simp [raise_of_not_err he, hc]
    · rw [raise_of_err he]
      exact hu.cause

theorem Mwu.Legal.setF (hu : u.Legal) (b : Bool) : (u.setF b).Legal where
  registers := hu.registers
  cause := hu.cause

theorem Mwu.Legal.writeReg (hu : u.Legal) (i : Nat) {p : BigInt cfg.wordBits} (hp : p.Normalized)
    (hf : fits cfg p = true) : (u.writeReg i p).Legal where
  registers j q h := by
    have hj := reg_lt h
    by_cases hji : j = i
    · subst hji
      rw [reg_writeReg_self j p hj] at h
      cases h
      exact ⟨hp, hf⟩
    · rw [reg_writeReg_ne p hji] at h
      exact hu.registers j q h
  cause := hu.cause

theorem causeOfDecodeError_ne_noError (e : DecodeError) : causeOfDecodeError e ≠ .noError := by
  cases e <;> decide

theorem Mwu.Legal.execute (hW : 0 < cfg.wordBits) (hu : u.Legal) (i : Instr) : (execute i u).Legal := by
  rcases execute_cases i u with ⟨-, h⟩ | ⟨-, -, h⟩ | ⟨-, -, -, h⟩ | ⟨-, -, -, -, h⟩ | ⟨d, v, -, -, -, -, hf, h⟩ |
    ⟨b, -, -, -, -, h⟩ <;> rw [h]
  · exact hu
  · exact hu.raise (by decide)
  · exact hu.raise (by decide)
  · exact hu.raise (by decide)
  · exact hu.writeReg d (canon_normalized hW v) hf
  · exact hu.setF b

theorem Mwu.Legal.executeWord (hW : 0 < cfg.wordBits) (hu : u.Legal) (c : BitVec 32) : (executeWord c u).Legal := by
  rcases executeWord_cases c u with ⟨-, h⟩ | ⟨e, -, -, h⟩ | ⟨i, -, -, h⟩ <;> rw [h]
  · exact hu
  · exact hu.raise (causeOfDecodeError_ne_noError e)
  · exact hu.execute hW i

theorem Mwu.Legal.hwrite (hu : u.Legal) (i : Reg) (sign : Bool) (words : List (BitVec cfg.wordBits)) :
    (hwrite i sign words u).1.Legal := by
  rcases hwrite_cases i sign words u with ⟨-, h⟩ | ⟨-, -, h⟩ | ⟨-, -, -, h⟩ | ⟨-, -, hf, h⟩ <;> rw [h]
  · exact hu
  · exact hu.raise (by decide)
  · exact hu.raise (by decide)
  · exact hu.writeReg i (normalize_normalized _) hf

theorem Mwu.Legal.hread (hu : u.Legal) (i : Reg) : (hread i u).1.Legal := by
  rcases hread_cases i u with ⟨-, h⟩ | ⟨-, -, h⟩ | ⟨p, -, -, h⟩ <;> rw [h]
  · exact hu.raise (by decide)
  · exact hu.raise (by decide)
  · exact hu

theorem Mwu.Legal.perform (hW : 0 < cfg.wordBits) (hu : u.Legal) (tr : Transaction cfg.wordBits) :
    (u.perform tr).1.Legal := by
  cases tr with
  | hwrite i sign words => exact hu.hwrite i sign words
  | hread i => exact hu.hread i
  | hcmd c => exact hu.executeWord hW c
  | hreadStatus | hreadValid => exact hu
  | reset => exact reset_legal cfg

/-! ### Steps and runs -/

/-- Everything a step can do: nothing when no transaction is issued, else the first of them. -/
theorem step_cases {s t : State} (h : step s = .next t) :
    (s.pending = [] ∧ t = s) ∨
    ∃ tr rest, s.pending = tr :: rest ∧
      t = { toMwu := (s.toMwu.perform tr).1, pending := rest, reply := some (s.toMwu.perform tr).2 } := by
  cases hp : s.pending with
  | nil =>
    rw [step_of_idle hp] at h
    cases h
    exact .inl ⟨rfl, rfl⟩
  | cons tr rest =>
    rw [step_eq hp] at h
    cases h
    exact .inr ⟨tr, rest, rfl, rfl⟩

/-- A run of `k + 1` steps is a step and a run of `k`. -/
theorem run_succ {M : Host.Core} {k : Nat} {s t : M.State} (h : M.run (k + 1) s = .next t) :
    ∃ m, M.step s = .next m ∧ M.run k m = .next t := by
  unfold Host.Core.run at h
  split at h
  next m hm => exact ⟨m, hm, h⟩
  next => cases h
  next => cases h

/-- What every step keeps, every run keeps. -/
theorem run_keeps {M : Host.Core} {P : M.State → Prop} (hP : ∀ s t, P s → M.step s = .next t → P t) {k : Nat}
    {s t : M.State} (hs : P s) (h : M.run k s = .next t) : P t := by
  induction k generalizing s with
  | zero =>
    cases h
    exact hs
  | succ k ih =>
    obtain ⟨m, hstep, hrun⟩ := run_succ h
    exact ih (hP s m hs hstep) hrun

/-! ### A unit in error (R29, R110) -/

/-- While ERR = 1 only RESET changes the unit: commands and HWRITE are discarded, and a raise records nothing. -/
theorem perform_of_err (he : u.err = true) {tr : Transaction cfg.wordBits} (htr : tr ≠ .reset) :
    (u.perform tr).1 = u := by
  cases tr with
  | hwrite => simp [Mwu.perform, hwrite, he]
  | hread i =>
    rcases hread_cases i u with ⟨-, h⟩ | ⟨-, -, h⟩ | ⟨p, -, -, h⟩ <;> simp [Mwu.perform, h, raise_of_err he]
  | hcmd => simp [Mwu.perform, executeWord, he]
  | hreadStatus | hreadValid => rfl
  | reset => exact absurd rfl htr

/-- The unit of `s` in error, with no RESET issued: what a run without RESET keeps. -/
structure HeldInError (s t : State) : Prop where
  same : SameUnit s t
  inError : t.InError
  noReset : Transaction.reset ∉ t.pending

theorem HeldInError.step {s t t' : State} (h : HeldInError s t) (hstep : step t = .next t') : HeldInError s t' := by
  obtain ⟨hsame, herr, hno⟩ := h
  rcases step_cases hstep with ⟨-, rfl⟩ | ⟨tr, rest, hp, rfl⟩
  · exact ⟨hsame, herr, hno⟩
  · rw [hp, List.mem_cons, not_or] at hno
    obtain ⟨htr, hrest⟩ := hno
    have hu : (t.toMwu.perform tr).1 = t.toMwu := perform_of_err herr (Ne.symm htr)
    exact ⟨hu.trans hsame, (congrArg Mwu.err hu).trans herr, hrest⟩

/-! ### Sources and destination (R26, R36) -/

/-- Two effects that do the same to this unit do the same to the state. -/
theorem onUnit_congr {s : State} {g g' : Mwu Config.hw → Mwu Config.hw} (h : g s.toMwu = g' s.toMwu) :
    s.onUnit g = s.onUnit g' := by
  unfold State.onUnit
  rw [h]

/-- A command of this hardware answers the state with the command done to its unit. -/
theorem toMwu_of_exec {i : Instr} {s t : State} (h : exec i s = .next t) : t.toMwu = execute i s.toMwu := by
  rw [exec_eq_execute] at h
  cases h
  rfl

/-- UNWRITTEN comes before the value law, and after ERR and REG_RANGE (R58). -/
theorem execute_of_unwritten {i : Instr} {r : Reg} (he : u.err = false) (hrange : ∀ q ∈ i.registers, q.val < cfg.numVreg)
    (hr : r ∈ i.sources) (hnone : u.reg r = none) : execute i u = u.withError .unwritten := by
  rcases execute_cases i u with ⟨he', -⟩ | ⟨-, ⟨q, hq, hq'⟩, -⟩ | ⟨-, -, -, h⟩ | ⟨-, -, hv, -⟩ | ⟨-, -, -, -, hv, -⟩ |
    ⟨-, -, -, hv, -⟩
  · rw [he] at he'; cases he'
  · exact absurd hq' (not_le.mpr (hrange q hq))
  · rw [h, raise_of_not_err he]
  · exact absurd hnone (hv r hr)
  · exact absurd hnone (hv r hr)
  · exact absurd hnone (hv r hr)

theorem hread_of_unwritten {i : Reg} (he : u.err = false) (hi : i.val < cfg.numVreg) (hnone : u.reg i = none) :
    hread i u = (u.withError .unwritten, .error) := by
  simp [hread, hi, hnone, raise_of_not_err he]

/-- A command changes no register but its destination (R36). -/
theorem reg_execute_of_ne_dest {i : Instr} {j : Reg} (hj : i.dest ≠ some j) : (execute i u).reg j = u.reg j := by
  rcases execute_cases i u with ⟨-, h⟩ | ⟨-, -, h⟩ | ⟨-, -, -, h⟩ | ⟨-, -, -, -, h⟩ | ⟨d, v, -, -, -, hd, -, h⟩ |
    ⟨b, -, -, -, -, h⟩ <;> rw [h]
  · exact reg_raise _ _
  · exact reg_raise _ _
  · exact reg_raise _ _
  · have hne : j ≠ d := fun hjd => hj (hjd ▸ hd)
    exact reg_writeReg_ne _ (Fin.val_ne_of_ne hne)
  · exact reg_setF _ _

/-! ### F (R28) -/

/-- The commands without a destination are the comparisons (30_encoding.md R52). -/
theorem format_eq_cmp_iff (i : Instr) : i.format = .cmp ↔ i.dest = none := by
  cases i <;> simp [Instr.format, Instr.dest]

/-- A command that leaves an error, or that is no comparison, leaves F. -/
theorem execute_f {i : Instr} (hi : i.format ≠ .cmp ∨ (execute i u).err = true) : (execute i u).f = u.f := by
  rcases execute_cases i u with ⟨-, h⟩ | ⟨-, -, h⟩ | ⟨-, -, -, h⟩ | ⟨-, -, -, -, h⟩ | ⟨d, v, -, -, -, -, -, h⟩ |
    ⟨b, he, -, -, hd, h⟩
  · rw [h]
  · rw [h, raise_f]
  · rw [h, raise_f]
  · rw [h, raise_f]
  · rw [h, writeReg_f]
  · rcases hi with hi | hi
    · exact absurd ((format_eq_cmp_iff i).mpr hd) hi
    · rw [h, setF_err, he] at hi
      cases hi

/-- No transaction but an HCMD and RESET writes F. -/
theorem perform_f {tr : Transaction cfg.wordBits} (hc : ∀ c, tr ≠ .hcmd c) (hr : tr ≠ .reset) :
    (u.perform tr).1.f = u.f := by
  cases tr with
  | hwrite i sign words =>
    rcases hwrite_cases i sign words u with ⟨-, h⟩ | ⟨-, -, h⟩ | ⟨-, -, -, h⟩ | ⟨-, -, -, h⟩ <;> simp [Mwu.perform, h]
  | hread i =>
    rcases hread_cases i u with ⟨-, h⟩ | ⟨-, -, h⟩ | ⟨p, -, -, h⟩ <;> simp [Mwu.perform, h]
  | hcmd c => exact absurd rfl (hc c)
  | hreadStatus | hreadValid => rfl
  | reset => exact absurd rfl hr

/-! Setting F before a command: it comes through every end of a command but a comparison's result. -/

theorem setF_setF (b g : Bool) : (u.setF b).setF g = u.setF g := rfl

theorem raise_setF (g : Bool) (c : Cause) : (u.setF g).raise c = (u.raise c).setF g := by
  cases he : u.err
  · rw [raise_of_not_err he, raise_of_not_err (u := u.setF g) he]
    rfl
  · rw [raise_of_err he, raise_of_err (u := u.setF g) he]

theorem writeResult_setF (g : Bool) (d : Nat) (p : BigInt cfg.wordBits) :
    (u.setF g).writeResult d p = (u.writeResult d p).setF g := by
  unfold Mwu.writeResult
  split
  · rfl
  · exact raise_setF g .capacity

theorem commandRRR_setF (law : Int → Int → Int) (d a b : Reg) (g : Bool) :
    commandRRR law d a b (u.setF g) = (commandRRR law d a b u).setF g := by
  rcases commandRRR_cases law d a b (rfl : commandRRR law d a b u = _) with
    ⟨he, h⟩ | ⟨he, hr, h⟩ | ⟨he, hr, hn | hn, h⟩ | ⟨x, y, he, hr, hx, hy, h⟩ <;> rw [h]
  · exact commandRRR_of_err (u := u.setF g) he law d a b
  · simp [commandRRR, he, hr, raise_setF]
  · simp [commandRRR, he, hr, hn, raise_setF]
  · simp [commandRRR, he, hr, hn, raise_setF]
  · simp [commandRRR, he, hr, hx, hy, writeResult_setF]

theorem commandRR_setF (law : Int → Int) (d a : Reg) (g : Bool) :
    commandRR law d a (u.setF g) = (commandRR law d a u).setF g := by
  rcases commandRR_cases law d a (rfl : commandRR law d a u = _) with
    ⟨he, h⟩ | ⟨he, hr, h⟩ | ⟨he, hr, hn, h⟩ | ⟨x, he, hr, hx, h⟩ <;> rw [h]
  · exact commandRR_of_err (u := u.setF g) he law d a
  · simp [commandRR, he, hr, raise_setF]
  · simp [commandRR, he, hr, hn, raise_setF]
  · simp [commandRR, he, hr, hx, writeResult_setF]

theorem commandCMP_setF (test : Int → Int → Bool) (a b : Reg) (g : Bool) :
    commandCMP test a b (u.setF g) =
      if (commandCMP test a b u).err then (commandCMP test a b u).setF g else commandCMP test a b u := by
  rcases commandCMP_cases test a b (rfl : commandCMP test a b u = _) with
    ⟨he, h⟩ | ⟨he, hr, h⟩ | ⟨he, hr, hn | hn, h⟩ | ⟨x, y, he, hr, hx, hy, h⟩ <;> rw [h]
  · rw [if_pos he]
    exact commandCMP_of_err (u := u.setF g) he test a b
  · simp [commandCMP, he, hr, raise_setF]
  · simp [commandCMP, he, hr, hn, raise_setF]
  · simp [commandCMP, he, hr, hn, raise_setF]
  · simp [commandCMP, he, hr, hx, hy, setF_setF]

/-- What F was before a command shows afterwards in F alone, and not there after a comparison that completes: no command
reads F. -/
theorem execute_setF (i : Instr) (u : Mwu cfg) (g : Bool) :
    ∃ b, execute i (u.setF g) = (execute i u).setF b ∧
      (i.format = .cmp → (execute i u).err = false → b = (execute i u).f) := by
  rcases exec_shape i with ⟨law, d, a, b, -, -, hf, -, he⟩ | ⟨law, d, a, -, -, hf, -, he⟩ | ⟨test, a, b, -, -, hf, -, he⟩
  · exact ⟨g, by simp only [he, commandRRR_setF], by simp [hf]⟩
  · exact ⟨g, by simp only [he, commandRR_setF], by simp [hf]⟩
  · simp only [he, commandCMP_setF]
    cases hc : (commandCMP test a b u).err
    · exact ⟨(commandCMP test a b u).f, rfl, fun _ _ => rfl⟩
    · exact ⟨g, rfl, by simp⟩

/-- F is bit 0 of STATUS (R27, R28). -/
theorem statusWord_getLsbD_zero (u : Mwu cfg) : u.statusWord.getLsbD 0 = u.f := by
  have hparity : (u.f.toNat + u.err.toNat * 2 + u.cause.code * 2 ^ 4) % 2 = u.f.toNat := by
    have := Bool.toNat_le u.f
    omega
  rw [Mwu.statusWord, BitVec.getLsbD_ofNat, Nat.testBit_zero, hparity]
  cases u.f <;> rfl

/-! ### The words the host reads after reset (R37) -/

theorem validWord_reset (cfg : Config) : (Mwu.reset cfg).validWord = 0 := by
  simp only [Mwu.validWord, reg_reset, Option.isSome_none]
  decide

theorem statusWord_reset (cfg : Config) : (Mwu.reset cfg).statusWord = 0 := by
  simp [Mwu.statusWord, Cause.code]

/-! ### The statements of the state rules -/

/-- Settles O10: a step performs one transaction or none, and every end of a transaction keeps the invariant: it leaves
the unit, raises, sets F, resets, or writes a normalized pair that fits. -/
theorem stepKeepsTheMachineLegal : Obligations.StepKeepsTheMachineLegal := by
  refine ⟨fun s t hs hstep => ?_, fun cfg u tr hcfg hu => hu.perform hcfg.width.pos tr⟩
  rcases step_cases hstep with ⟨-, rfl⟩ | ⟨tr, rest, -, rfl⟩
  · exact hs
  · exact hs.perform hw_legal.width.pos tr

/-- Settles O13: a step keeps the unit in error as it is, and leaves no RESET pending where there was none. -/
theorem errorSurvivesEveryRunWithoutReset : Obligations.ErrorSurvivesEveryRunWithoutReset := by
  intro k s t herr hno hrun
  have held : HeldInError s t := run_keeps (fun _ _ h hstep => h.step hstep) ⟨rfl, herr, hno⟩ hrun
  exact ⟨held.same, held.inError⟩

/-- Settles O14: on this hardware every index is in range, so a source without a value decides what the command does. -/
theorem unwrittenRegisterRaises : Obligations.UnwrittenRegisterRaises := by
  refine ⟨fun i r s he hr hnone => ?_, fun r s he hnone => ?_⟩
  · have hunit : execute i s.toMwu = s.toMwu.withError .unwritten :=
      execute_of_unwritten he (fun q _ => q.isLt) hr hnone
    rw [exec_eq_execute]
    exact congrArg Host.Outcome.next (onUnit_congr hunit)
  · have hunit : s.toMwu.perform (.hread r) = (s.toMwu.withError .unwritten, .error) :=
      hread_of_unwritten he r.isLt hnone
    rw [perform_eq, State.transact, hunit]
    exact congrArg (fun s' : State => Host.Outcome.next (s'.answer .error)) (onUnit_congr (congrArg Prod.fst hunit))

/-- Settles O54: F is written by a comparison's result alone, and setting it before a command shows in F alone. -/
theorem onlyComparisonsWriteF : Obligations.OnlyComparisonsWriteF := by
  refine ⟨fun i s t h hi => ?_, fun i s t h herr => ?_, fun tr s t hc hr h => ?_, fun i s t g h => ?_,
    fun s => statusWord_getLsbD_zero s.toMwu, rfl⟩
  · rw [toMwu_of_exec h]
    exact execute_f (.inl hi)
  · rw [toMwu_of_exec h] at herr ⊢
    rcases herr with herr | herr
    · rw [execute_of_err i herr]
    · exact execute_f (.inr herr)
  · rw [perform_eq] at h
    cases h
    exact perform_f hc hr
  · obtain ⟨b, hb, hf⟩ := execute_setF i s.toMwu g
    rw [← toMwu_of_exec h] at hb hf
    refine ⟨(s.onUnit (·.setF g)).onUnit (execute i), exec_eq_execute i _, ?_⟩
    rw [onUnit_toMwu, onUnit_toMwu, hb]
    exact ⟨fun j => reg_setF b j, rfl, rfl, hf⟩

/-- Settles O55: the one register a command can write is its destination. -/
theorem commandsChangeOnlyTheirDestination : Obligations.CommandsChangeOnlyTheirDestination := by
  refine ⟨fun cfg u d j p hj => reg_writeReg_ne p hj, fun i s t h j hj => ?_⟩
  rw [toMwu_of_exec h]
  exact reg_execute_of_ne_dest hj

/-- Settles O1: every register is empty after reset, so VALID is 0, and STATUS is made of fields that are 0. -/
theorem resetStateHoldsNothing : Obligations.ResetStateHoldsNothing :=
  ⟨reg_reset, validWord_reset Config.hw, rfl, rfl, rfl, statusWord_reset Config.hw⟩

/-- Settles O2: no register holds a value, and CAUSE and ERR are 0. -/
theorem resetStateIsLegal : Obligations.ResetStateIsLegal := reset_legal Config.hw

end Sys2Proof.Machine
end

section
/-! PROOFS, the memory rules (20_memory.md): what a read leaves of the unit, and which transactions are idempotent. -/

namespace Sys2Proof.Machine

variable {cfg : Config} {u : Mwu cfg}

/-! ### Reads (R44) -/

/-- A transaction with this hardware answers the state with the transaction done to its unit. -/
theorem toMwu_of_perform {tr : HostTransaction} {s t : State} (h : perform tr s = .next t) :
    t.toMwu = (s.toMwu.perform tr).1 := by
  rw [perform_eq] at h
  cases h
  rfl

/-- A register that holds a value has an index in range, so neither of HREAD's errors is raised. -/
theorem hread_fst_of_isSome {i : Reg} (h : (u.reg i).isSome) : (hread i u).1 = u := by
  obtain ⟨p, hp⟩ := Option.isSome_iff_exists.mp h
  rcases hread_cases i u with ⟨hrange, -⟩ | ⟨-, hnone, -⟩ | ⟨q, -, -, hq⟩
  · exact absurd (reg_lt hp) (not_lt.mpr hrange)
  · simp [hp] at hnone
  · rw [hq]

theorem hread_fst_of_none {i : Reg} (hi : i.val < cfg.numVreg) (hnone : u.reg i = none) :
    (hread i u).1 = u.raise .unwritten := by
  rcases hread_cases i u with ⟨hrange, -⟩ | ⟨-, -, hraise⟩ | ⟨p, -, hp, -⟩
  · exact absurd hi (not_lt.mpr hrange)
  · rw [hraise]
  · simp [hnone] at hp

/-- An HREAD's one effect on the unit is the error it may raise. -/
theorem hread_fst_eq_or_err (i : Reg) (u : Mwu cfg) : (hread i u).1 = u ∨ (hread i u).1.err = true := by
  rcases hread_cases i u with ⟨-, h⟩ | ⟨-, -, h⟩ | ⟨p, -, -, h⟩ <;> rw [h]
  · exact .inr (raise_err u _)
  · exact .inr (raise_err u _)
  · exact .inl rfl

/-! ### Idempotence (R44) -/

/-- A second HREAD finds the unit it found, or finds it in error, and then changes nothing. -/
theorem perform_hread_idem (i : Reg) (u : Mwu cfg) :
    ((u.perform (.hread i)).1.perform (.hread i)).1 = (u.perform (.hread i)).1 := by
  rcases hread_fst_eq_or_err i u with h | h
  · have hsame : (u.perform (.hread i)).1 = u := h
    rw [hsame, hsame]
  · exact perform_of_err h (by simp)

theorem perform_idem {tr : Transaction cfg.wordBits} (hc : ∀ c, tr ≠ .hcmd c)
    (hw : ∀ i sign words, tr ≠ .hwrite i sign words) (u : Mwu cfg) :
    ((u.perform tr).1.perform tr).1 = (u.perform tr).1 := by
  cases tr with
  | hwrite i sign words => exact absurd rfl (hw i sign words)
  | hread i => exact perform_hread_idem i u
  | hcmd c => exact absurd rfl (hc c)
  | hreadStatus | hreadValid | reset => rfl

/-! ### The statements of the memory rules -/

/-- Settles O57: a read leaves the unit but for the error of an HREAD, which is recorded once; RESET gives the same unit
from every unit. -/
theorem readsAreIdempotent : Obligations.ReadsAreIdempotent := by
  refine ⟨fun s t h => toMwu_of_perform h, fun s t h => toMwu_of_perform h, fun i s t hi h => ?_,
    fun i s t hnone h => ?_, fun tr s t u hc hw hst htu => ?_⟩
  · exact (toMwu_of_perform h).trans (hread_fst_of_isSome hi)
  · have hunit : t.toMwu = s.toMwu.raise .unwritten := (toMwu_of_perform h).trans (hread_fst_of_none i.isLt hnone)
    rw [hunit]
    exact ⟨raise_err _ _, fun he => by rw [raise_of_not_err he, withError_cause]⟩
  · have hrepeat : u.toMwu = (t.toMwu.perform tr).1 := toMwu_of_perform htu
    rw [toMwu_of_perform hst, perform_idem hc hw, ← toMwu_of_perform hst] at hrepeat
    exact hrepeat

end Sys2Proof.Machine
end

section
/-! PROOFS, the encoding rules (30_encoding.md): the fields of a word and the masks, the rows of the opcode map, from
these the decoder and the encoder as inverses; then the errors a word or a command raises, what its result depends on,
and the pseudo-instructions. -/

namespace Sys2Proof

/-! ### The fields of a word (R51) -/

theorem bitField_lt (c : BitVec 32) (lo n : Nat) : bitField c lo n < 2 ^ n := Nat.mod_lt _ (Nat.two_pow_pos n)

theorem bitField_eq_toNat_extractLsb' (c : BitVec 32) (lo n : Nat) : bitField c lo n = (c.extractLsb' lo n).toNat := by
  rw [bitField, BitVec.extractLsb'_toNat, Nat.shiftRight_eq_div_pow]

theorem bitField_eq_zero_iff (c : BitVec 32) (lo n : Nat) : bitField c lo n = 0 ↔ c.extractLsb' lo n = 0 := by
  rw [bitField_eq_toNat_extractLsb', ← BitVec.toNat_inj]
  rfl

theorem bitField_and (c m : BitVec 32) (lo n : Nat) :
    bitField (c &&& m) lo n = bitField c lo n &&& bitField m lo n := by
  simp only [bitField, BitVec.toNat_and, Nat.and_div_two_pow, Nat.and_mod_two_pow]

theorem rdField_val (c : BitVec 32) : (rdField c).val = bitField c 8 4 := Nat.mod_eq_of_lt (bitField_lt c 8 4)
theorem rs1Field_val (c : BitVec 32) : (rs1Field c).val = bitField c 12 4 := Nat.mod_eq_of_lt (bitField_lt c 12 4)
theorem rs2Field_val (c : BitVec 32) : (rs2Field c).val = bitField c 16 4 := Nat.mod_eq_of_lt (bitField_lt c 16 4)

theorem rdField_eq_zero_iff (c : BitVec 32) : rdField c = 0 ↔ bitField c 8 4 = 0 := by
  rw [← rdField_val, Fin.val_eq_zero_iff]

theorem rs1Field_eq_zero_iff (c : BitVec 32) : rs1Field c = 0 ↔ bitField c 12 4 = 0 := by
  rw [← rs1Field_val, Fin.val_eq_zero_iff]

theorem rs2Field_eq_zero_iff (c : BitVec 32) : rs2Field c = 0 ↔ bitField c 16 4 = 0 := by
  rw [← rs2Field_val, Fin.val_eq_zero_iff]

/-- The five fields cover a word. -/
theorem word_eq_iff (c e : BitVec 32) :
    c = e ↔ opcodeField c = opcodeField e ∧ rdField c = rdField e ∧ rs1Field c = rs1Field e ∧
      rs2Field c = rs2Field e ∧ resField c = resField e := by
  refine ⟨fun h => by simp [h], fun h => BitVec.eq_of_toNat_eq ?_⟩
  simp only [← Fin.val_inj, rdField_val, rs1Field_val, rs2Field_val, opcodeField, resField, bitField] at h
  omega

/-- A word made of fields holds them. -/
theorem fields_fieldsWord {op : Nat} (hop : op < 2 ^ 8) (d a b : Reg) :
    opcodeField (fieldsWord op d a b) = op ∧ rdField (fieldsWord op d a b) = d ∧ rs1Field (fieldsWord op d a b) = a ∧
      rs2Field (fieldsWord op d a b) = b ∧ resField (fieldsWord op d a b) = 0 := by
  have := d.isLt
  have := a.isLt
  have := b.isLt
  simp only [← Fin.val_inj, rdField_val, rs1Field_val, rs2Field_val, opcodeField, resField, bitField,
    Laws.fieldsWord_toNat op hop]
  omega

/-- A word with `res` 0 is made of its fields. -/
theorem fieldsWord_of_fields {c : BitVec 32} (hres : resField c = 0) :
    fieldsWord (opcodeField c) (rdField c) (rs1Field c) (rs2Field c) = c := by
  obtain ⟨hop, hd, ha, hb, hr⟩ := fields_fieldsWord (bitField_lt c 0 8) (rdField c) (rs1Field c) (rs2Field c)
  exact (word_eq_iff _ _).mpr ⟨hop, hd, ha, hb, hr.trans hres.symm⟩

/-! ### The formats and their masks (R52, R55) -/

/-- `res` and the register fields that the format `f` leaves unused are 0 (R57). -/
abbrev Format.UnusedZero (f : Format) (res : Nat) (d b : Reg) : Prop :=
  res = 0 ∧ (f = .rr → b = 0) ∧ (f = .cmp → d = 0)

/-- The fields of the word `c` that must be 0 in the format `f` are. -/
abbrev Format.Admits (f : Format) (c : BitVec 32) : Prop := f.UnusedZero (resField c) (rdField c) (rs2Field c)

theorem unusedZero_rrr (d b : Reg) : Format.rrr.UnusedZero 0 d b := ⟨rfl, nofun, nofun⟩
theorem unusedZero_rr (d : Reg) : Format.rr.UnusedZero 0 d 0 := ⟨rfl, fun _ => rfl, nofun⟩
theorem unusedZero_cmp (b : Reg) : Format.cmp.UnusedZero 0 0 b := ⟨rfl, nofun, fun _ => rfl⟩

theorem bitField_mask (f : Format) :
    bitField f.mask 0 8 = 2 ^ 8 - 1 ∧ bitField f.mask 8 4 = (if f = .cmp then 2 ^ 4 - 1 else 0) ∧
      bitField f.mask 12 4 = 0 ∧ bitField f.mask 16 4 = (if f = .rr then 2 ^ 4 - 1 else 0) ∧
      bitField f.mask 20 12 = 2 ^ 12 - 1 := by
  cases f <;> decide

/-- A mask that covers a field keeps it. -/
theorem bitField_and_allOnes (c : BitVec 32) (lo n : Nat) : bitField c lo n &&& (2 ^ n - 1) = bitField c lo n :=
  Nat.and_two_pow_sub_one_of_lt_two_pow (bitField_lt c lo n)

/-- A mask tests a field for 0 where it covers it. -/
theorem bitField_and_ite_eq_zero_iff (c : BitVec 32) (lo n : Nat) (p : Prop) [Decidable p] :
    (bitField c lo n &&& if p then 2 ^ n - 1 else 0) = 0 ↔ (p → bitField c lo n = 0) := by
  split
  · rw [bitField_and_allOnes]
    tauto
  · rw [Nat.and_zero]
    tauto

/-- The mask of a format keeps the opcode and the fields that must be 0 (R55). -/
theorem and_mask_eq_iff (f : Format) (c : BitVec 32) {op : Nat} (hop : op < 2 ^ 8) :
    c &&& f.mask = BitVec.ofNat 32 op ↔ opcodeField c = op ∧ f.Admits c := by
  have hword : BitVec.ofNat 32 op = fieldsWord op 0 0 0 := by simp [fieldsWord]
  obtain ⟨ho, hd, ha, hb, hr⟩ := fields_fieldsWord hop 0 0 0
  obtain ⟨mo, md, ma, mb, mr⟩ := bitField_mask f
  rw [hword, word_eq_iff, ho, hd, ha, hb, hr]
  simp only [Format.Admits, Format.UnusedZero, rdField_eq_zero_iff, rs1Field_eq_zero_iff, rs2Field_eq_zero_iff,
    opcodeField, resField, bitField_and, mo, md, ma, mb, mr, bitField_and_allOnes, bitField_and_ite_eq_zero_iff,
    Nat.and_zero]
  tauto

theorem and_opcodeMask (c : BitVec 32) : c &&& 0xFF#32 = BitVec.ofNat 32 (opcodeField c) := by
  apply BitVec.eq_of_toNat_eq
  have hmod : (c &&& 0xFF#32).toNat = c.toNat % 2 ^ 8 := Nat.and_two_pow_sub_one_eq_mod c.toNat 8
  rw [hmod, BitVec.toNat_ofNat, opcodeField, bitField]
  omega

/-! ### The rows of the opcode map (R54) -/

/-- The format of a row. -/
def OpcodeRow.format : OpcodeRow → Format
  | .rrr _ => .rrr
  | .rr _ => .rr
  | .cmp _ => .cmp

/-- The command that a row makes of the register fields, of which it takes those its format uses. -/
def OpcodeRow.command (d a b : Reg) : OpcodeRow → Instr
  | .rrr make => make d a b
  | .rr make => make d a
  | .cmp make => make a b

/-- What every row of the map has: an 8-bit opcode, its line in the table, and commands of its opcode and format whose
words hold the fields the format uses. -/
structure OpcodeRow.At (op : Nat) (row : OpcodeRow) : Prop where
  lt : op < 2 ^ 8
  listed : (BitVec.ofNat 32 op, row.format.mask) ∈ tableRows
  opcode : ∀ d a b, (row.command d a b).opcode = op
  format : ∀ d a b, (row.command d a b).format = row.format
  encode : ∀ d a b, encode (row.command d a b) =
    fieldsWord op (if row.format = .cmp then 0 else d) a (if row.format = .rr then 0 else b)

theorem opcodeRow_at {op : Nat} {row : OpcodeRow} (h : opcodeRow op = some row) : row.At op := by
  unfold opcodeRow at h
  split at h <;> cases h <;>
    exact ⟨by decide, by decide, fun _ _ _ => rfl, fun _ _ _ => rfl, fun _ _ _ => rfl⟩

theorem encode_command {op : Nat} {row : OpcodeRow} (h : opcodeRow op = some row) {res : Nat} {d b : Reg}
    (hu : row.format.UnusedZero res d b) (a : Reg) : encode (row.command d a b) = fieldsWord op d a b := by
  obtain ⟨-, hb, hd⟩ := hu
  rw [(opcodeRow_at h).encode, ite_eq_right_iff.mpr fun hf => (hd hf).symm, ite_eq_right_iff.mpr fun hf => (hb hf).symm]

/-- Every command is one that the row of its opcode makes, of register fields that are 0 where its format uses none. -/
theorem exists_row (i : Instr) :
    ∃ row d a b, opcodeRow i.opcode = some row ∧ row.format.UnusedZero 0 d b ∧ row.command d a b = i := by
  cases i with
  | and d a b | or d a b | xor d a b | shl d a b | shr d a b | add d a b | sub d a b | mul d a b =>
    exact ⟨_, d, a, b, rfl, unusedZero_rrr d b, rfl⟩
  | not d a | neg d a | inc d a | dec d a | bitlen d a => exact ⟨_, d, a, 0, rfl, unusedZero_rr d, rfl⟩
  | eq a b | ne a b | lt a b | le a b | gt a b | ge a b => exact ⟨_, 0, a, b, rfl, unusedZero_cmp b, rfl⟩

/-- The listed matches and masks are those of the rows (R55). -/
theorem mem_tableRows_iff (m : BitVec 32 × BitVec 32) :
    m ∈ tableRows ↔ ∃ op row, opcodeRow op = some row ∧ m = (BitVec.ofNat 32 op, row.format.mask) := by
  refine ⟨fun h => ?_, fun ⟨op, row, hrow, hm⟩ => hm ▸ (opcodeRow_at hrow).listed⟩
  have hall : ∀ m ∈ tableRows, (opcodeRow m.1.toNat).map (·.format.mask) = some m.2 := by
    simp [tableRows, opcodeRow, OpcodeRow.format]
  obtain ⟨row, hrow, hmask⟩ := Option.map_eq_some_iff.mp (hall m h)
  exact ⟨m.1.toNat, row, hrow, by simp [hmask]⟩

/-- The opcodes without a row (R56). -/
theorem opcodeRow_eq_none_iff (op : Nat) :
    opcodeRow op = none ↔ op = 0x00 ∨ (0x05 ≤ op ∧ op ≤ 0x07) ∨ (0x0A ≤ op ∧ op ≤ 0x0F) ∨ (0x17 ≤ op ∧ op ≤ 0x1F) ∨
      0x26 ≤ op := by
  unfold opcodeRow
  split
  pick_goal -1
  · simp only [imp_false, true_iff] at *
    omega
  all_goals simp

/-! ### The decoder (R55 to R57) -/

theorem decode_of_no_row {c : BitVec 32} (h : opcodeRow (opcodeField c) = none) : decode c = .error .illegalOpcode := by
  simp [decode, h]

/-- With a row for its opcode, a word is the row's command of its fields, if those that must be 0 are. -/
theorem decode_of_row {c : BitVec 32} {row : OpcodeRow} (h : opcodeRow (opcodeField c) = some row) :
    decode c = if row.format.Admits c then .ok (row.command (rdField c) (rs1Field c) (rs2Field c))
      else .error .reservedField := by
  cases row <;> simp [decode, h, OpcodeRow.format, OpcodeRow.command, Format.Admits, Format.UnusedZero]

/-- Everything the decoder can do with a word. -/
theorem decode_cases (c : BitVec 32) :
    (opcodeRow (opcodeField c) = none ∧ decode c = .error .illegalOpcode) ∨
    (∃ row, opcodeRow (opcodeField c) = some row ∧ ¬ row.format.Admits c ∧ decode c = .error .reservedField) ∨
    ∃ row, opcodeRow (opcodeField c) = some row ∧ row.format.Admits c ∧
      decode c = .ok (row.command (rdField c) (rs1Field c) (rs2Field c)) := by
  cases h : opcodeRow (opcodeField c) with
  | none => exact .inl ⟨rfl, decode_of_no_row h⟩
  | some row =>
    have hd := decode_of_row h
    by_cases hz : row.format.Admits c
    · exact .inr (.inr ⟨row, rfl, hz, hd.trans (if_pos hz)⟩)
    · exact .inr (.inl ⟨row, rfl, hz, hd.trans (if_neg hz)⟩)

theorem decode_eq_illegalOpcode_iff (c : BitVec 32) :
    decode c = .error .illegalOpcode ↔ opcodeRow (opcodeField c) = none := by
  rcases decode_cases c with ⟨hrow, hd⟩ | ⟨row, hrow, -, hd⟩ | ⟨row, hrow, -, hd⟩ <;> simp [hrow, hd]

theorem decode_eq_ok_iff (c : BitVec 32) (i : Instr) :
    decode c = .ok i ↔ ∃ row, opcodeRow (opcodeField c) = some row ∧ row.format.Admits c ∧
      row.command (rdField c) (rs1Field c) (rs2Field c) = i := by
  rcases decode_cases c with ⟨hrow, hd⟩ | ⟨row, hrow, hz, hd⟩ | ⟨row, hrow, hz, hd⟩
  · simp [hrow, hd]
  · simp only [hrow, hd, hz, Option.some.injEq, exists_eq_left', false_and, reduceCtorEq]
  · simp only [hrow, hd, and_iff_right hz, Option.some.injEq, exists_eq_left', Except.ok.injEq]

theorem decode_encode (i : Instr) : decode (encode i) = .ok i := by
  obtain ⟨row, d, a, b, hrow, hu, rfl⟩ := exists_row i
  obtain ⟨ho, hd, ha, hb, hr⟩ := fields_fieldsWord (Laws.opcode_lt (row.command d a b)) d a b
  rw [encode_command hrow hu, decode_eq_ok_iff]
  simp only [Format.Admits, ho, hd, ha, hb, hr]
  exact ⟨row, hrow, hu, rfl⟩

theorem encode_of_decode {c : BitVec 32} {i : Instr} (h : decode c = .ok i) : encode i = c := by
  obtain ⟨row, hrow, hz, rfl⟩ := (decode_eq_ok_iff c i).mp h
  rw [encode_command hrow hz]
  exact fieldsWord_of_fields hz.1

/-- A listed row matches a word exactly when it is the row of the word's opcode and the fields that must be 0 are. -/
theorem matches_iff {c : BitVec 32} {m : BitVec 32 × BitVec 32} (hm : m ∈ tableRows) :
    c &&& m.2 = m.1 ↔ ∃ row, opcodeRow (opcodeField c) = some row ∧ row.format.Admits c ∧
      m = (BitVec.ofNat 32 (opcodeField c), row.format.mask) := by
  constructor
  · obtain ⟨op, row, hrow, rfl⟩ := (mem_tableRows_iff m).mp hm
    intro h
    obtain ⟨rfl, hz⟩ := (and_mask_eq_iff row.format c (opcodeRow_at hrow).lt).mp h
    exact ⟨row, hrow, hz, rfl⟩
  · rintro ⟨row, hrow, hz, rfl⟩
    exact (and_mask_eq_iff row.format c (opcodeRow_at hrow).lt).mpr ⟨rfl, hz⟩

/-- A word with the opcode of a listed row has a row in the map. -/
theorem exists_row_of_opcodeMask {c : BitVec 32} {m : BitVec 32 × BitVec 32} (hm : m ∈ tableRows)
    (h : c &&& 0xFF#32 = m.1) : ∃ row, opcodeRow (opcodeField c) = some row := by
  obtain ⟨op, row, hrow, rfl⟩ := (mem_tableRows_iff m).mp hm
  have hop : opcodeField c = op := by
    have hlt := (opcodeRow_at hrow).lt
    have hlt' := bitField_lt c 0 8
    have heq := congrArg BitVec.toNat ((and_opcodeMask c).symm.trans h)
    simp only [BitVec.toNat_ofNat, opcodeField] at heq ⊢
    omega
  exact ⟨row, hop ▸ hrow⟩

/-! ### The statements about words -/

/-- Settles O5: a command is what the row of its opcode makes of the fields of its word, and the word holds them. -/
theorem decodeOfEncodeIsTheCommand : Obligations.DecodeOfEncodeIsTheCommand := decode_encode

/-- Settles O6: a word that decodes has `res` and its unused fields 0, so it is made of the fields its command keeps. -/
theorem encodeOfDecodeIsTheWord : Obligations.EncodeOfDecodeIsTheWord := fun _ _ => encode_of_decode

/-- Settles O7: a listed row matches a word exactly when it is the row of the word's opcode and the fields that must be
0 are, which is when the decoder accepts the word. -/
theorem wordIsACommandExactlyWhenItMatchesARow : Obligations.WordIsACommandExactlyWhenItMatchesARow := by
  intro c
  refine ⟨⟨fun ⟨i, hi⟩ => ?_, fun ⟨m, hm, h⟩ => ?_⟩, fun m₁ hm₁ m₂ hm₂ h₁ h₂ => ?_, fun i hi => ?_,
    fun ⟨m, hm, hop⟩ hno => ?_⟩
  · obtain ⟨row, hrow, hz, -⟩ := (decode_eq_ok_iff c i).mp hi
    have hm := (opcodeRow_at hrow).listed
    exact ⟨_, hm, (matches_iff hm).mpr ⟨row, hrow, hz, rfl⟩⟩
  · obtain ⟨row, hrow, hz, -⟩ := (matches_iff hm).mp h
    exact ⟨_, (decode_eq_ok_iff c _).mpr ⟨row, hrow, hz, rfl⟩⟩
  · obtain ⟨row₁, hrow₁, -, rfl⟩ := (matches_iff hm₁).mp h₁
    obtain ⟨row₂, hrow₂, -, rfl⟩ := (matches_iff hm₂).mp h₂
    rw [Option.some_inj.mp (hrow₁.symm.trans hrow₂)]
  · obtain ⟨row, hrow, hz, rfl⟩ := (decode_eq_ok_iff c i).mp hi
    rw [(opcodeRow_at hrow).opcode, (opcodeRow_at hrow).format]
    exact (and_mask_eq_iff row.format c (opcodeRow_at hrow).lt).mpr ⟨rfl, hz⟩
  · obtain ⟨row, hrow⟩ := exists_row_of_opcodeMask hm hop
    have hz : ¬ row.format.Admits c := fun hz =>
      hno _ (opcodeRow_at hrow).listed ((and_mask_eq_iff row.format c (opcodeRow_at hrow).lt).mpr ⟨rfl, hz⟩)
    rw [decode_of_row hrow, if_neg hz]

/-- Settles O4: the words are those of the commands they stand for. -/
theorem knownCommandWordsDecode : Obligations.KnownCommandWordsDecode :=
  ⟨decode_encode (.shl 3 0 1), decode_encode (.shr 4 3 2), decode_encode (.add 2 0 1), decode_encode (.sub 3 2 1),
    decode_encode (.neg 4 2), decode_encode (.mul 3 1 1), decode_encode (.bitlen 5 3), decode_encode (.dec 2 1),
    decode_encode (.lt 4 2), decode_encode (.eq 5 0), decode_encode (.not 1 2), decode_encode (.and 3 1 2),
    decode_encode (.or 3 1 2), decode_encode (.xor 3 1 2)⟩

end Sys2Proof

namespace Sys2Proof.Machine

variable {cfg : Config} {u : Mwu cfg} {s : State}

/-! ### From the unit to the state -/

/-- What a command does to the unit of this hardware is all it does. -/
theorem exec_of_execute {i : Instr} {g : Mwu Config.hw → Mwu Config.hw} (h : execute i s.toMwu = g s.toMwu) :
    exec i s = .next (s.onUnit g) := by
  rw [exec_eq_execute, onUnit_congr h]

/-- What a transaction does to the unit of this hardware, and answers, is all it does. -/
theorem perform_of_unit {tr : HostTransaction} {g : Mwu Config.hw → Mwu Config.hw} {r : HostReply}
    (h : s.toMwu.perform tr = (g s.toMwu, r)) : perform tr s = .next ((s.onUnit g).answer r) := by
  rw [perform_eq, State.transact, onUnit_congr (congrArg Prod.fst h), h]

/-! ### Words that are no command (R56, R57) -/

theorem executeWord_of_error {c : BitVec 32} {e : DecodeError} (he : u.err = false) (hd : decode c = .error e) :
    executeWord c u = u.withError (causeOfDecodeError e) := by
  simp [executeWord, he, hd, raise_of_not_err he]

theorem executeWord_of_ok {c : BitVec 32} {i : Instr} (he : u.err = false) (hd : decode c = .ok i) :
    executeWord c u = execute i u := by
  simp [executeWord, he, hd]

/-- The step with a word issued that is no command: the cause is recorded, and the host gets its completion. -/
theorem step_of_decode_error {c : BitVec 32} {e : DecodeError} {rest : List HostTransaction} (he : s.err = false)
    (hp : s.pending = .hcmd c :: rest) (hd : decode c = .error e) :
    step s = .next ((s.answered rest .completion).withError (causeOfDecodeError e)) := by
  rw [step_eq hp, Mwu.perform, executeWord_of_error he hd]
  rfl

/-- A word with the opcode of a command, but with `res` or a field its format leaves unused not 0. -/
theorem decode_of_reserved {c : BitVec 32} {i : Instr} (hop : i.opcode = opcodeField c) (hz : ¬ i.format.Admits c) :
    decode c = .error .reservedField := by
  obtain ⟨row, d, a, b, hrow, -, rfl⟩ := exists_row i
  have hrow' := opcodeRow_at hrow
  rw [hop] at hrow
  rw [hrow'.format] at hz
  rw [decode_of_row hrow, if_neg hz]

/-! ### REG_RANGE (R58) -/

theorem execute_of_out_of_range {i : Instr} (he : u.err = false) (h : ∃ r ∈ i.registers, cfg.numVreg ≤ r.val) :
    execute i u = u.withError .regRange := by
  obtain ⟨r, hr, hle⟩ := h
  have hnot (hall : ∀ r ∈ i.registers, r.val < cfg.numVreg) : False := absurd (hall r hr) (not_lt.mpr hle)
  rcases execute_cases i u with ⟨he', -⟩ | ⟨-, -, h⟩ | ⟨-, hall, -⟩ | ⟨-, hall, -⟩ | ⟨-, -, -, hall, -⟩ |
    ⟨-, -, hall, -⟩
  · simp [he] at he'
  · rw [h, raise_of_not_err he]
  all_goals exact (hnot hall).elim

theorem hwrite_of_out_of_range {i : Reg} (he : u.err = false) (hi : cfg.numVreg ≤ i.val) (sign : Bool)
    (words : List (BitVec cfg.wordBits)) : hwrite i sign words u = (u.withError .regRange, .error) := by
  simp [hwrite, he, not_lt.mpr hi, raise_of_not_err he]

theorem hread_of_out_of_range {i : Reg} (he : u.err = false) (hi : cfg.numVreg ≤ i.val) :
    hread i u = (u.withError .regRange, .error) := by
  simp [hread, not_lt.mpr hi, raise_of_not_err he]

/-- The unit has recorded no REG_RANGE. -/
def Mwu.NoRangeError (u : Mwu cfg) : Prop := u.err = true → u.cause ≠ .regRange

theorem noRangeError_of_not_err (he : u.err = false) : u.NoRangeError := by simp [Mwu.NoRangeError, he]

theorem Mwu.NoRangeError.raise (hu : u.NoRangeError) {c : Cause} (hc : c ≠ .regRange) : (u.raise c).NoRangeError := by
  cases he : u.err
  · rw [raise_of_not_err he]
    exact fun _ => hc
  · rwa [raise_of_err he]

theorem Mwu.NoRangeError.execute (h16 : cfg.numVreg = 16) (hu : u.NoRangeError) (i : Instr) :
    (execute i u).NoRangeError := by
  rcases execute_cases i u with ⟨-, h⟩ | ⟨-, ⟨r, -, hle⟩, -⟩ | ⟨-, -, -, h⟩ | ⟨-, -, -, -, h⟩ |
    ⟨d, v, -, -, -, -, -, h⟩ | ⟨b, -, -, -, -, h⟩
  · rwa [h]
  · omega
  · rw [h]
    exact hu.raise (by decide)
  · rw [h]
    exact hu.raise (by decide)
  · rw [h]
    exact hu
  · rw [h]
    exact hu

theorem Mwu.NoRangeError.executeWord (h16 : cfg.numVreg = 16) (hu : u.NoRangeError) (c : BitVec 32) :
    (executeWord c u).NoRangeError := by
  rcases executeWord_cases c u with ⟨-, h⟩ | ⟨e, -, -, h⟩ | ⟨i, -, -, h⟩ <;> rw [h]
  · exact hu
  · exact hu.raise (by cases e <;> decide)
  · exact hu.execute h16 i

theorem Mwu.NoRangeError.hwrite (h16 : cfg.numVreg = 16) (hu : u.NoRangeError) (i : Reg) (sign : Bool)
    (words : List (BitVec cfg.wordBits)) : (hwrite i sign words u).1.NoRangeError := by
  rcases hwrite_cases i sign words u with ⟨-, h⟩ | ⟨-, hle, -⟩ | ⟨-, -, -, h⟩ | ⟨-, -, -, h⟩
  · rwa [h]
  · omega
  · rw [h]
    exact hu.raise (by decide)
  · rw [h]
    exact hu

theorem Mwu.NoRangeError.hread (h16 : cfg.numVreg = 16) (hu : u.NoRangeError) (i : Reg) :
    (hread i u).1.NoRangeError := by
  rcases hread_cases i u with ⟨hle, -⟩ | ⟨-, -, h⟩ | ⟨p, -, -, h⟩
  · omega
  · rw [h]
    exact hu.raise (by decide)
  · rwa [h]

/-- With 16 value registers no transaction raises REG_RANGE (60_exceptions.md R107). -/
theorem Mwu.NoRangeError.perform (h16 : cfg.numVreg = 16) (hu : u.NoRangeError) (tr : Transaction cfg.wordBits) :
    (u.perform tr).1.NoRangeError := by
  cases tr with
  | hwrite i sign words => exact hu.hwrite h16 i sign words
  | hread i => exact hu.hread h16 i
  | hcmd c => exact hu.executeWord h16 c
  | hreadStatus | hreadValid => exact hu
  | reset => exact noRangeError_of_not_err rfl

/-! ### CAPACITY (R58) -/

/-- With a bound of `n` words, the results that do not fit are those outside the range of `n` words. -/
theorem fits_canon_eq_false_iff (hcfg : cfg.Legal) {n : Nat} {hn : 0 < n} (hm : cfg.maxWords = .bounded n hn)
    (v : Int) :
    fits cfg (canon cfg.wordBits v) = false ↔
      v < -(2 ^ (cfg.wordBits * n) : Nat) ∨ ((2 ^ (cfg.wordBits * n) : Nat) : Int) ≤ v := by
  rw [fits_of_bounded _ hn hm, canon_length, decide_eq_false_iff_not, wordCount_le_iff hcfg.width.pos, not_and_or,
    not_le, not_lt]
  push_cast
  rfl

theorem commandRRR_of_not_fits (law : Int → Int → Int) {d a b : Reg} {x y : BigInt cfg.wordBits} (he : u.err = false)
    (hr : indicesInRange cfg [d, a, b] = true) (hx : u.reg a = some x) (hy : u.reg b = some y)
    (hf : fits cfg (canon cfg.wordBits (law x.val y.val)) = false) :
    commandRRR law d a b u = u.withError .capacity := by
  simp [commandRRR, Mwu.writeResult, he, hr, hx, hy, hf, raise_of_not_err he]

theorem commandRR_of_not_fits (law : Int → Int) {d a : Reg} {x : BigInt cfg.wordBits} (he : u.err = false)
    (hr : indicesInRange cfg [d, a] = true) (hx : u.reg a = some x)
    (hf : fits cfg (canon cfg.wordBits (law x.val)) = false) : commandRR law d a u = u.withError .capacity := by
  simp [commandRR, Mwu.writeResult, he, hr, hx, hf, raise_of_not_err he]

/-- An HWRITE tests the capacity on the normalized pair, the canonical form of its value. -/
theorem hwrite_of_not_fits (hW : 0 < cfg.wordBits) {i : Reg} (p : BigInt cfg.wordBits) (he : u.err = false)
    (hi : i.val < cfg.numVreg) (hf : fits cfg (canon cfg.wordBits p.val) = false) :
    hwrite i p.sign p.words u = (u.withError .capacity, .error) := by
  rw [← normalize_eq_canon hW] at hf
  simp [hwrite, he, hi, hf, raise_of_not_err he]

theorem shlLaw_natCast (x : Int) (n : Nat) : shlLaw x n = x * 2 ^ n := by
  simp [shlLaw]

/-! ### What a result depends on (R59) -/

/-- Two units hold the same outcome of a command with the destination `dest`: the same error or the same result. -/
structure SameOutcome (dest : Option Reg) (t₁ t₂ : Mwu cfg) : Prop where
  err : t₁.err = t₂.err
  cause : t₁.err = true → t₁.cause = t₂.cause
  result : t₁.err = false → ∀ d : Reg, dest = some d → t₁.reg d = t₂.reg d
  flag : t₁.err = false → dest = none → t₁.f = t₂.f

variable {u₁ u₂ : Mwu cfg}

theorem sameOutcome_raise (h₁ : u₁.err = false) (h₂ : u₂.err = false) (dest : Option Reg) (c : Cause) :
    SameOutcome dest (u₁.raise c) (u₂.raise c) := by
  rw [raise_of_not_err h₁, raise_of_not_err h₂]
  exact ⟨rfl, fun _ => rfl, nofun, nofun⟩

theorem sameOutcome_writeResult (h₁ : u₁.err = false) (h₂ : u₂.err = false) {d : Reg} (hd : d.val < cfg.numVreg)
    (p : BigInt cfg.wordBits) : SameOutcome (some d) (u₁.writeResult d p) (u₂.writeResult d p) := by
  unfold Mwu.writeResult
  split
  · refine ⟨h₁.trans h₂.symm, fun h => ?_, fun _ d' hd' => ?_, nofun⟩
    · simp [h₁] at h
    · cases hd'
      rw [reg_writeReg_self _ p hd, reg_writeReg_self _ p hd]
  · exact sameOutcome_raise h₁ h₂ _ _

theorem sameOutcome_setF (h₁ : u₁.err = false) (h₂ : u₂.err = false) (b : Bool) :
    SameOutcome none (u₁.setF b) (u₂.setF b) := by
  refine ⟨h₁.trans h₂.symm, fun h => ?_, nofun, fun _ _ => rfl⟩
  simp [h₁] at h

theorem sameOutcome_commandRRR (law : Int → Int → Int) {d a b : Reg} (h₁ : u₁.err = false) (h₂ : u₂.err = false)
    (ha : u₁.reg a = u₂.reg a) (hb : u₁.reg b = u₂.reg b) :
    SameOutcome (some d) (commandRRR law d a b u₁) (commandRRR law d a b u₂) := by
  simp only [commandRRR, h₁, h₂, ha, hb]
  cases hr : indicesInRange cfg [d, a, b] with
  | false => exact sameOutcome_raise h₁ h₂ _ .regRange
  | true =>
    have hd : d.val < cfg.numVreg := indicesInRange_eq_true.mp hr d (by simp)
    cases u₂.reg a with
    | none => exact sameOutcome_raise h₁ h₂ _ .unwritten
    | some x =>
      cases u₂.reg b with
      | none => exact sameOutcome_raise h₁ h₂ _ .unwritten
      | some y => exact sameOutcome_writeResult h₁ h₂ hd _

theorem sameOutcome_commandRR (law : Int → Int) {d a : Reg} (h₁ : u₁.err = false) (h₂ : u₂.err = false)
    (ha : u₁.reg a = u₂.reg a) : SameOutcome (some d) (commandRR law d a u₁) (commandRR law d a u₂) := by
  simp only [commandRR, h₁, h₂, ha]
  cases hr : indicesInRange cfg [d, a] with
  | false => exact sameOutcome_raise h₁ h₂ _ .regRange
  | true =>
    have hd : d.val < cfg.numVreg := indicesInRange_eq_true.mp hr d (by simp)
    cases u₂.reg a with
    | none => exact sameOutcome_raise h₁ h₂ _ .unwritten
    | some x => exact sameOutcome_writeResult h₁ h₂ hd _

theorem sameOutcome_commandCMP (test : Int → Int → Bool) {a b : Reg} (h₁ : u₁.err = false) (h₂ : u₂.err = false)
    (ha : u₁.reg a = u₂.reg a) (hb : u₁.reg b = u₂.reg b) :
    SameOutcome none (commandCMP test a b u₁) (commandCMP test a b u₂) := by
  simp only [commandCMP, h₁, h₂, ha, hb]
  cases indicesInRange cfg [a, b] with
  | false => exact sameOutcome_raise h₁ h₂ _ .regRange
  | true =>
    cases u₂.reg a with
    | none => exact sameOutcome_raise h₁ h₂ _ .unwritten
    | some x =>
      cases u₂.reg b with
      | none => exact sameOutcome_raise h₁ h₂ _ .unwritten
      | some y => exact sameOutcome_setF h₁ h₂ _

theorem sameOutcome_execute {i : Instr} (h₁ : u₁.err = false) (h₂ : u₂.err = false)
    (hs : ∀ r ∈ i.sources, u₁.reg r = u₂.reg r) : SameOutcome i.dest (execute i u₁) (execute i u₂) := by
  rcases exec_shape i with ⟨law, d, a, b, hd, hsrc, -, -, he⟩ | ⟨law, d, a, hd, hsrc, -, -, he⟩ |
    ⟨test, a, b, hd, hsrc, -, -, he⟩ <;> rw [hd, he, he] <;> rw [hsrc] at hs
  · exact sameOutcome_commandRRR law h₁ h₂ (hs a (by simp)) (hs b (by simp))
  · exact sameOutcome_commandRR law h₁ h₂ (hs a (by simp))
  · exact sameOutcome_commandCMP test h₁ h₂ (hs a (by simp)) (hs b (by simp))

/-! ### The pseudo-instructions (R60) -/

theorem runCommands_cons {i : Instr} {t : State} (h : exec i s = .next t) (is : List Instr) :
    runCommands (i :: is) s = runCommands is t := by
  rw [runCommands, h]

theorem runCommands_one {i : Instr} {t : State} (h : exec i s = .next t) : runCommands [i] s = .next t :=
  runCommands_cons h []

theorem onlyRegisterChanged_writeReg (s : State) (d : Nat) (p : Value) :
    OnlyRegisterChanged d s (s.onUnit (·.writeReg d p)) where
  unit := ⟨fun _ hj => reg_writeReg_ne p hj, rfl, rfl, rfl⟩
  pending := rfl
  reply := rfl

@[simp] theorem orLaw_self (x : Int) : orLaw x x = x := by
  cases x <;> simp [orLaw]

@[simp] theorem xorLaw_self (x : Int) : xorLaw x x = 0 := by
  cases x <;> simp [xorLaw]

/-- An RRR command that completes, by the pair it writes. -/
theorem commandRRR_writes (law : Int → Int → Int) {d a b : Reg} {x y p : BigInt cfg.wordBits} (he : u.err = false)
    (hr : indicesInRange cfg [d, a, b] = true) (hx : u.reg a = some x) (hy : u.reg b = some y)
    (hp : canon cfg.wordBits (law x.val y.val) = p) (hf : fits cfg p = true) :
    commandRRR law d a b u = u.writeReg d p := by
  subst hp
  exact commandRRR_completes law he hr hx hy hf

/-- An RR command that completes, by the pair it writes. -/
theorem commandRR_writes (law : Int → Int) {d a : Reg} {x p : BigInt cfg.wordBits} (he : u.err = false)
    (hr : indicesInRange cfg [d, a] = true) (hx : u.reg a = some x) (hp : canon cfg.wordBits (law x.val) = p)
    (hf : fits cfg p = true) : commandRR law d a u = u.writeReg d p := by
  subst hp
  exact commandRR_completes law he hr hx hf

theorem exec_or_self {x : Value} (d : Reg) {a : Reg} (he : s.err = false) (hx : s.reg a = some x) (hn : x.Normalized)
    (hf : fits Config.hw x = true) : exec (.or d a a) s = .next (s.onUnit (·.writeReg d x)) := by
  have hcanon : canon Config.hw.wordBits (orLaw x.val x.val) = x := by
    rw [orLaw_self, canon_val_of_normalized hw_legal.width.pos hn]
  exact exec_of_execute (commandRRR_writes orLaw he (indicesInRange_hw_three d a a) hx hx hcanon hf)

theorem exec_xor_self {x : Value} (d : Reg) {a : Reg} (he : s.err = false) (hx : s.reg a = some x) :
    exec (.xor d a a) s = .next (s.onUnit (·.writeReg d ⟨false, []⟩)) := by
  have hcanon : canon Config.hw.wordBits (xorLaw x.val x.val) = ⟨false, []⟩ := by
    rw [xorLaw_self, canon_zero hw_legal.width.pos]
  exact exec_of_execute (commandRRR_writes xorLaw he (indicesInRange_hw_three d a a) hx hx hcanon
    (fits_of_length_le_one _ (by simp)))

theorem exec_not_zero (d : Reg) {a : Reg} (he : s.err = false) (hx : s.reg a = some ⟨false, []⟩) :
    exec (.not d a) s = .next (s.onUnit (·.writeReg d ⟨true, []⟩)) := by
  have hcanon : canon Config.hw.wordBits (notLaw (⟨false, []⟩ : Value).val) = ⟨true, []⟩ :=
    canon_neg_one hw_legal.width.pos
  exact exec_of_execute (commandRR_writes notLaw he (indicesInRange_hw_two d a) hx hcanon
    (fits_of_length_le_one _ (by simp)))

/-- Copying a register and then stepping it (POSTINC, POSTDEC): the destination gets the value before the step. -/
theorem copy_then_step (law : Int → Int) {step : Instr} {d a : Reg} {x : Value}
    (hstep : ∀ u : Mwu Config.hw, execute step u = commandRR law a a u) (he : s.err = false) (hx : s.reg a = some x)
    (hn : x.Normalized) (hf : fits Config.hw x = true) (hda : d ≠ a)
    (hf' : fits Config.hw (canon Config.hw.wordBits (law x.val)) = true) :
    ∃ t p, runCommands [.or d a a, step] s = .next t ∧ t.reg d = some x ∧ t.reg a = some p ∧ p.Normalized ∧
      p.val = law x.val ∧ OnlyRegistersChanged d a s t := by
  have hne : d.val ≠ a.val := Fin.val_ne_of_ne hda
  have hW := hw_legal.width.pos
  have hsource : (s.toMwu.writeReg d x).reg a = some x := by rw [reg_writeReg_ne x hne.symm, hx]
  have hunit : execute step (s.toMwu.writeReg d x) = _ :=
    (hstep _).trans (commandRR_completes law he (indicesInRange_hw_two a a) hsource hf')
  have hsecond := exec_of_execute (s := s.onUnit (·.writeReg d x))
    (g := (·.writeReg a (canon Config.hw.wordBits (law x.val)))) hunit
  refine ⟨_, _, (runCommands_cons (exec_or_self d he hx hn hf) _).trans (runCommands_one hsecond), ?_,
    reg_writeReg_hw _ a _, canon_normalized hW _, canon_val hW _, fun j hjd hja => ?_, rfl, rfl, rfl, rfl, rfl⟩
  · exact (reg_writeReg_ne _ hne).trans (reg_writeReg_hw _ d x)
  · exact (reg_writeReg_ne _ hja).trans (reg_writeReg_ne _ hjd)

/-! ### The statements about commands -/

/-- Settles O8: the decoder answers ILLEGAL_OPCODE exactly for the opcodes without a row, and the step records what the
decoder answers. -/
theorem illegalOpcodeRaises : Obligations.IllegalOpcodeRaises := by
  refine fun c => ⟨?_, fun s rest he hp hd => step_of_decode_error he hp hd⟩
  have hlt := bitField_lt c 0 8
  rw [decode_eq_illegalOpcode_iff, opcodeRow_eq_none_iff, ← bitField_eq_toNat_extractLsb', opcodeField]
  omega

/-- Settles O9: each of the fields named is one the command's format requires to be 0. -/
theorem reservedFieldRaises : Obligations.ReservedFieldRaises := by
  intro c i hop hfield s rest he hp
  have hz : ¬ i.format.Admits c := by
    rintro ⟨hres, hrs2, hrd⟩
    rw [rs2Field_eq_zero_iff, bitField_eq_zero_iff] at hrs2
    rw [rdField_eq_zero_iff, bitField_eq_zero_iff] at hrd
    rw [resField, bitField_eq_zero_iff] at hres
    tauto
  have hop' : i.opcode = opcodeField c := hop.trans (bitField_eq_toNat_extractLsb' c 0 8).symm
  exact step_of_decode_error he hp (decode_of_reserved hop' hz)

/-- Settles O16: the canonical form of a value is its shortest, so it is within `n` words exactly when the value is
within their range; a result that is not ends the command, or the HWRITE, in CAPACITY. -/
theorem longResultRaisesCapacity : Obligations.LongResultRaisesCapacity := by
  refine ⟨fun cfg n hn u hcfg hm he => ⟨fun law d a b x y hd ha hb hx hy hlong => ?_,
    fun law d a x hd ha hx hlong => ?_, fun i p hi hlong => ?_⟩,
    fun d a b s x y he hx hy => ⟨fun hf => ?_, fun hf => ?_, fun hf => ?_, fun n hn hf => ?_⟩,
    fun d a s x he hx => ⟨fun hf => ?_, fun hf => ?_, fun hf => ?_⟩, fun i p s he hf => ?_⟩
  · exact commandRRR_of_not_fits law he (indicesInRange_eq_true.mpr (by simp [hd, ha, hb])) hx hy
      ((fits_canon_eq_false_iff hcfg hm _).mpr hlong)
  · exact commandRR_of_not_fits law he (indicesInRange_eq_true.mpr (by simp [hd, ha])) hx
      ((fits_canon_eq_false_iff hcfg hm _).mpr hlong)
  · exact hwrite_of_not_fits hcfg.width.pos p he hi ((fits_canon_eq_false_iff hcfg hm _).mpr hlong)
  · exact exec_of_execute (commandRRR_of_not_fits addLaw he (indicesInRange_hw_three d a b) hx hy hf)
  · exact exec_of_execute (commandRRR_of_not_fits subLaw he (indicesInRange_hw_three d a b) hx hy hf)
  · exact exec_of_execute (commandRRR_of_not_fits mulLaw he (indicesInRange_hw_three d a b) hx hy hf)
  · rw [← shlLaw_natCast, ← hn] at hf
    exact exec_of_execute (commandRRR_of_not_fits shlLaw he (indicesInRange_hw_three d a b) hx hy hf)
  · exact exec_of_execute (commandRR_of_not_fits negLaw he (indicesInRange_hw_two d a) hx hf)
  · exact exec_of_execute (commandRR_of_not_fits incLaw he (indicesInRange_hw_two d a) hx hf)
  · exact exec_of_execute (commandRR_of_not_fits decLaw he (indicesInRange_hw_two d a) hx hf)
  · exact perform_of_unit (hwrite_of_not_fits hw_legal.width.pos p he i.isLt hf)

/-- Settles O56: a command looks at ERR, at its own indices and at its sources, and at nothing else that can tell the
two units apart. -/
theorem resultDependsOnlyOnTheSources : Obligations.ResultDependsOnlyOnTheSources := by
  intro i s₁ s₂ t₁ t₂ h₁ h₂ hs ht₁ ht₂
  rw [toMwu_of_exec ht₁, toMwu_of_exec ht₂]
  obtain ⟨herr, hcause, hresult, hflag⟩ := sameOutcome_execute h₁ h₂ hs
  exact ⟨herr, hcause, fun h => ⟨hresult h, hflag h⟩⟩

/-- Settles O60: `x OR x` is `x` and `x XOR x` is 0, and the second command of an expansion reads what the first
left. -/
theorem pseudoInstructionsDoWhatTheyName : Obligations.PseudoInstructionsDoWhatTheyName := by
  intro d a s x he hx hn hf
  have hclear := exec_xor_self d he hx
  refine ⟨⟨_, runCommands_one (exec_or_self d he hx hn hf), reg_writeReg_hw _ d x,
      onlyRegisterChanged_writeReg s d x⟩,
    ⟨_, runCommands_one hclear, reg_writeReg_hw _ d _, onlyRegisterChanged_writeReg s d _⟩, ?_,
    copy_then_step incLaw (fun _ => rfl) he hx hn hf, copy_then_step decLaw (fun _ => rfl) he hx hn hf⟩
  have hnot := exec_not_zero d (s := s.onUnit (·.writeReg d ⟨false, []⟩)) he (reg_writeReg_hw _ d _)
  refine ⟨_, (runCommands_cons hclear _).trans (runCommands_one hnot), reg_writeReg_hw _ d _, ?_, rfl, rfl⟩
  exact ⟨fun j hj => (reg_writeReg_ne _ hj).trans (reg_writeReg_ne _ hj), rfl, rfl, rfl⟩

/-- Settles O15: the indices are tested before the registers are read, and with 16 registers the test cannot fail. -/
theorem registerIndexOutOfRangeRaises : Obligations.RegisterIndexOutOfRangeRaises := by
  refine ⟨fun cfg u _ he => ⟨fun i hi => execute_of_out_of_range he hi, fun c i hd hi => ?_,
    fun i sign words hi => hwrite_of_out_of_range he hi sign words, fun i hi => hread_of_out_of_range he hi,
    fun h16 tr => (noRangeError_of_not_err he).perform h16 tr⟩, fun s t he hstep => ?_⟩
  · rw [Mwu.perform, executeWord_of_ok he hd, execute_of_out_of_range he hi]
  · have hs := noRangeError_of_not_err he
    rcases step_cases hstep with ⟨-, rfl⟩ | ⟨tr, rest, -, rfl⟩
    · exact hs
    · exact hs.perform hw_numVreg tr

end Sys2Proof.Machine
end

section
/-! PROOFS, the bitwise engine (40_bitwise.md R61 to R65): the value laws bit by bit, the bits of a pair read off its
effective words, and from these the word algorithms as the value laws and the commands that complete. -/

namespace Sys2Proof.Machine

variable {W : Nat}

/-! ### The bits of an integer (R10) -/

/-- The complement of a natural number, shifted right, is the complement of the number shifted right. -/
theorem negSucc_div_two_pow (m j : Nat) : Int.negSucc m / 2 ^ j = Int.negSucc (m / 2 ^ j) := by
  rw [Int.negSucc_ediv _ (by positivity), Int.negSucc_eq]
  norm_cast

/-- The bit of R10 is the library's. -/
theorem bitOf_eq_testBit (v : Int) (j : Nat) : bitOf v j = (v.testBit j).toNat := by
  have hnat (m : Nat) : (m.testBit j).toNat = m / 2 ^ j % 2 := Nat.toNat_testBit m j
  cases v with
  | ofNat m =>
    rw [Int.testBit, hnat]
    simp [bitOf]
  | negSucc m =>
    have hbit := hnat m
    rw [bitOf, Int.testBit]
    push_cast
    rw [negSucc_div_two_pow, Int.negSucc_eq]
    generalize m / 2 ^ j = q at hbit ⊢
    cases h : m.testBit j <;> simp only [h, Bool.toNat, Bool.not, cond] at hbit ⊢ <;> omega

theorem testBit_eq_iff_bitOf_eq {v w : Int} {j k : Nat} : v.testBit j = w.testBit k ↔ bitOf v j = bitOf w k := by
  rw [bitOf_eq_testBit, bitOf_eq_testBit]
  cases v.testBit j <;> cases w.testBit k <;> decide

/-- An integer is its bits: those of a natural number end in zeros, those of a complement in ones. -/
theorem eq_of_testBit_eq {v w : Int} (h : ∀ j, v.testBit j = w.testBit j) : v = w := by
  have hmixed (m n : Nat) (h : ∀ j, m.testBit j = !n.testBit j) : False := by
    have hm := Nat.testBit_lt_two_pow (m.lt_two_pow_self.trans_le (Nat.pow_le_pow_right two_pos (le_max_left m n)))
    have hn := Nat.testBit_lt_two_pow (n.lt_two_pow_self.trans_le (Nat.pow_le_pow_right two_pos (le_max_right m n)))
    simpa [hm, hn] using h (max m n)
  cases v with
  | ofNat m =>
    cases w with
    | ofNat n => exact congrArg Int.ofNat (Nat.eq_of_testBit_eq h)
    | negSucc n => exact (hmixed m n h).elim
  | negSucc m =>
    cases w with
    | ofNat n => exact (hmixed n m fun j => (h j).symm).elim
    | negSucc n => exact congrArg Int.negSucc (Nat.eq_of_testBit_eq fun j => Bool.not_inj (h j))

theorem testBit_div_two_pow (v : Int) (n k : Nat) : (v / 2 ^ n).testBit k = v.testBit (n + k) := by
  rw [testBit_eq_iff_bitOf_eq, bitOf, bitOf]
  push_cast
  rw [Int.ediv_ediv_of_nonneg (by positivity), ← pow_add]

theorem testBit_mod_two_pow (v : Int) {n k : Nat} (h : k < n) : (v % 2 ^ n).testBit k = v.testBit k := by
  obtain ⟨m, rfl⟩ := Nat.exists_eq_add_of_lt h
  rw [testBit_eq_iff_bitOf_eq, bitOf, bitOf]
  push_cast
  have hsplit : v = v % 2 ^ (k + m + 1) + 2 ^ k * (2 * (2 ^ m * (v / 2 ^ (k + m + 1)))) := by
    have := Int.emod_add_mul_ediv v (2 ^ (k + m + 1))
    linear_combination -this
  conv_rhs => rw [hsplit, Int.add_mul_ediv_left _ _ (by positivity), Int.add_mul_emod_self_left]

/-! ### The value laws bit by bit (R61 to R64) -/

theorem natAndNot_eq_ldiff (x y : Nat) : natAndNot x y = Nat.ldiff x y := by
  refine Nat.eq_of_testBit_eq fun j => ?_
  rw [natAndNot, Nat.testBit_xor, Nat.testBit_and, Nat.testBit_ldiff]
  cases x.testBit j <;> cases y.testBit j <;> rfl

theorem notLaw_eq_lnot (x : Int) : notLaw x = Int.lnot x := by
  cases x with
  | ofNat m => simp [notLaw, Int.lnot, Int.negSucc_eq]; omega
  | negSucc m => simp [notLaw, Int.lnot, Int.negSucc_eq]

theorem andLaw_eq_land (x y : Int) : andLaw x y = Int.land x y := by
  cases x <;> cases y <;> simp [andLaw, Int.land, natAndNot_eq_ldiff]

theorem orLaw_eq_lor (x y : Int) : orLaw x y = Int.lor x y := by
  cases x <;> cases y <;> simp [orLaw, Int.lor, natAndNot_eq_ldiff]

theorem xorLaw_eq_xor (x y : Int) : xorLaw x y = Int.xor x y := by
  cases x <;> cases y <;> simp [xorLaw, Int.xor]

theorem bitOf_andLaw (x y : Int) (j : Nat) : bitOf (andLaw x y) j = bitOf x j * bitOf y j := by
  simp only [bitOf_eq_testBit, andLaw_eq_land, Int.testBit_land]
  cases x.testBit j <;> cases y.testBit j <;> rfl

theorem bitOf_orLaw (x y : Int) (j : Nat) : bitOf (orLaw x y) j = max (bitOf x j) (bitOf y j) := by
  simp only [bitOf_eq_testBit, orLaw_eq_lor, Int.testBit_lor]
  cases x.testBit j <;> cases y.testBit j <;> rfl

theorem bitOf_xorLaw (x y : Int) (j : Nat) : bitOf (xorLaw x y) j = (bitOf x j + bitOf y j) % 2 := by
  simp only [bitOf_eq_testBit, xorLaw_eq_xor, Int.testBit_lxor]
  cases x.testBit j <;> cases y.testBit j <;> rfl

/-! ### The effective words of the results (R12) -/

/-- Every bit of a value is a bit of an effective word, stored or not. -/
theorem testBit_val (hW : 0 < W) (p : BigInt W) (j : Nat) : p.val.testBit j = (p.eff (j / W)).getLsbD (j % W) := by
  have hword : (((p.eff (j / W)).toNat : Nat) : Int).testBit (j % W) = (p.eff (j / W)).getLsbD (j % W) := rfl
  rw [← hword, eff_toNat, testBit_mod_two_pow _ (Nat.mod_lt j hW), testBit_div_two_pow, Nat.div_add_mod]

theorem allOnes_eq (W : Nat) : allOnes W = BitVec.allOnes W := BitVec.eq_of_toNat_eq (by simp)

@[simp] theorem eff_nil (s : Bool) (i : Nat) : (⟨s, []⟩ : BigInt W).eff i = extWord W s := rfl
@[simp] theorem eff_cons_zero (s : Bool) (w : BitVec W) (ws : List (BitVec W)) :
    (⟨s, w :: ws⟩ : BigInt W).eff 0 = w := rfl
@[simp] theorem eff_cons_succ (s : Bool) (w : BitVec W) (ws : List (BitVec W)) (i : Nat) :
    (⟨s, w :: ws⟩ : BigInt W).eff (i + 1) = (⟨s, ws⟩ : BigInt W).eff i := rfl

/-- What `normalize` removes is what `eff` puts back. -/
@[simp] theorem eff_normalize (p : BigInt W) (i : Nat) : p.normalize.eff i = p.eff i := by
  refine BitVec.eq_of_toNat_eq (Int.ofNat_inj.mp ?_)
  rw [eff_toNat, eff_toNat, normalize_val]

@[simp] theorem extWord_not (s : Bool) : extWord W (!s) = ~~~extWord W s := by
  cases s <;> simp [allOnes_eq]

theorem extWord_xor (s t : Bool) : extWord W (s ^^ t) = extWord W s ^^^ extWord W t := by
  cases s <;> cases t <;> simp

theorem eff_map_not (s : Bool) (ws : List (BitVec W)) (i : Nat) :
    (⟨!s, ws.map (~~~·)⟩ : BigInt W).eff i = ~~~(⟨s, ws⟩ : BigInt W).eff i := by
  rw [BigInt.eff, extWord_not]
  exact List.getD_map (f := (~~~·)) ..

@[simp] theorem andLists_nil_left (sx sy : Bool) (ys : List (BitVec W)) :
    andLists sx sy [] ys = if sx then ys else [] := by
  rw [andLists]

@[simp] theorem andLists_nil_right (sx sy : Bool) (xs : List (BitVec W)) :
    andLists sx sy xs [] = if sy then xs else [] := by
  cases xs <;> simp [andLists]

@[simp] theorem andLists_cons_cons (sx sy : Bool) (x y : BitVec W) (xs ys : List (BitVec W)) :
    andLists sx sy (x :: xs) (y :: ys) = (x &&& y) :: andLists sx sy xs ys := by
  rw [andLists]

theorem eff_andLists (sx sy : Bool) (xs ys : List (BitVec W)) (i : Nat) :
    (⟨sx && sy, andLists sx sy xs ys⟩ : BigInt W).eff i =
      (⟨sx, xs⟩ : BigInt W).eff i &&& (⟨sy, ys⟩ : BigInt W).eff i := by
  induction xs generalizing ys i with
  | nil => cases sx <;> simp [allOnes_eq]
  | cons x xs ih =>
    cases ys with
    | nil => cases sy <;> simp [allOnes_eq]
    | cons y ys => cases i <;> simp [ih]

/-- OR is the complement of the AND of the complements. -/
theorem orLists_eq_map_andLists (sx sy : Bool) (xs ys : List (BitVec W)) :
    orLists sx sy xs ys = (andLists (!sx) (!sy) (xs.map (~~~·)) (ys.map (~~~·))).map (~~~·) := by
  induction xs generalizing ys with
  | nil => cases sx <;> simp [orLists, Function.comp_def]
  | cons x xs ih =>
    cases ys with
    | nil => cases sy <;> simp [orLists, Function.comp_def]
    | cons y ys => simp [orLists, ih, BitVec.not_and]

theorem eff_orLists (sx sy : Bool) (xs ys : List (BitVec W)) (i : Nat) :
    (⟨sx || sy, orLists sx sy xs ys⟩ : BigInt W).eff i =
      (⟨sx, xs⟩ : BigInt W).eff i ||| (⟨sy, ys⟩ : BigInt W).eff i := by
  have hsign : (sx || sy) = !(!sx && !sy) := by simp
  rw [orLists_eq_map_andLists, hsign, eff_map_not, eff_andLists, eff_map_not, eff_map_not, BitVec.not_and,
    BitVec.not_not, BitVec.not_not]

theorem notWords_eff (x : BigInt W) (i : Nat) : (notWords x).eff i = ~~~x.eff i := by
  rw [notWords, eff_normalize, eff_map_not]

theorem andWords_eff (x y : BigInt W) (i : Nat) : (andWords x y).eff i = x.eff i &&& y.eff i := by
  rw [andWords, eff_normalize, eff_andLists]

theorem orWords_eff (x y : BigInt W) (i : Nat) : (orWords x y).eff i = x.eff i ||| y.eff i := by
  rw [orWords, eff_normalize, eff_orLists]

theorem xorWords_eff (x y : BigInt W) (i : Nat) : (xorWords x y).eff i = x.eff i ^^^ y.eff i := by
  rw [xorWords, eff_normalize]
  rcases Nat.lt_or_ge i (max x.words.length y.words.length) with h | h
  · rw [eff_lt _ (by simpa using h)]
    simp
  · obtain ⟨hx, hy⟩ := max_le_iff.mp h
    rw [eff_ge _ (by simpa using h), eff_ge x hx, eff_ge y hy, extWord_xor]

/-! ### The word algorithms (R61 to R64) -/

theorem notWords_val (hW : 0 < W) (x : BigInt W) : (notWords x).val = notLaw x.val := by
  refine eq_of_testBit_eq fun j => ?_
  simp [notLaw_eq_lnot, testBit_val hW, notWords_eff, Nat.mod_lt j hW]

theorem andWords_val (hW : 0 < W) (x y : BigInt W) : (andWords x y).val = andLaw x.val y.val := by
  refine eq_of_testBit_eq fun j => ?_
  simp [andLaw_eq_land, testBit_val hW, andWords_eff]

theorem orWords_val (hW : 0 < W) (x y : BigInt W) : (orWords x y).val = orLaw x.val y.val := by
  refine eq_of_testBit_eq fun j => ?_
  simp [orLaw_eq_lor, testBit_val hW, orWords_eff]

theorem xorWords_val (hW : 0 < W) (x y : BigInt W) : (xorWords x y).val = xorLaw x.val y.val := by
  refine eq_of_testBit_eq fun j => ?_
  simp [xorLaw_eq_xor, testBit_val hW, xorWords_eff]

theorem notWords_normalized (x : BigInt W) : (notWords x).Normalized := normalize_normalized _
theorem andWords_normalized (x y : BigInt W) : (andWords x y).Normalized := normalize_normalized _
theorem orWords_normalized (x y : BigInt W) : (orWords x y).Normalized := normalize_normalized _
theorem xorWords_normalized (x y : BigInt W) : (xorWords x y).Normalized := normalize_normalized _

/-- A normalized pair of a value is its canonical form. -/
theorem eq_canon_of_val_eq (hW : 0 < W) {p : BigInt W} (hp : p.Normalized) {v : Int} (hv : p.val = v) :
    p = canon W v := by
  rw [← hv, canon_val_of_normalized hW hp]

/-! ### No result is longer than its longer operand (R61 to R64) -/

theorem andLists_length_le (sx sy : Bool) (xs ys : List (BitVec W)) :
    (andLists sx sy xs ys).length ≤ max xs.length ys.length := by
  induction xs generalizing ys with
  | nil => cases sx <;> simp
  | cons x xs ih =>
    cases ys with
    | nil => cases sy <;> simp
    | cons y ys => simpa using ih ys

theorem notWords_length_le (x : BigInt W) : (notWords x).words.length ≤ x.words.length :=
  (normalize_length_le _).trans (by simp)

theorem andWords_length_le (x y : BigInt W) : (andWords x y).words.length ≤ max x.words.length y.words.length :=
  (normalize_length_le _).trans (andLists_length_le ..)

theorem orWords_length_le (x y : BigInt W) : (orWords x y).words.length ≤ max x.words.length y.words.length := by
  refine (normalize_length_le _).trans ?_
  simpa [orLists_eq_map_andLists] using
    andLists_length_le (!x.sign) (!y.sign) (x.words.map (~~~·)) (y.words.map (~~~·))

theorem xorWords_length_le (x y : BigInt W) : (xorWords x y).words.length ≤ max x.words.length y.words.length :=
  (normalize_length_le _).trans (by simp)

/-! ### Commands that complete (R58) -/

variable {s : State}

/-- An RRR command on this hardware that completes, by the normalized pair it writes. -/
theorem exec_rrr_writes {i : Instr} {law : Int → Int → Int} {d a b : Reg} {x y p : Value}
    (hi : execute i s.toMwu = commandRRR law d a b s.toMwu) (he : s.err = false) (hx : s.reg a = some x)
    (hy : s.reg b = some y) (hp : p.Normalized) (hv : p.val = law x.val y.val) (hf : fits Config.hw p = true) :
    ∃ t, exec i s = .next t ∧ t.reg d = some p ∧ OnlyRegisterChanged d s t := by
  have hcanon := (eq_canon_of_val_eq hw_legal.width.pos hp hv).symm
  have hwrite := commandRRR_writes law he (indicesInRange_hw_three d a b) hx hy hcanon hf
  exact ⟨_, exec_of_execute (g := (·.writeReg d p)) (hi.trans hwrite), reg_writeReg_hw _ d p,
    onlyRegisterChanged_writeReg s d p⟩

/-- An RR command on this hardware that completes, by the normalized pair it writes. -/
theorem exec_rr_writes {i : Instr} {law : Int → Int} {d a : Reg} {x p : Value}
    (hi : execute i s.toMwu = commandRR law d a s.toMwu) (he : s.err = false) (hx : s.reg a = some x)
    (hp : p.Normalized) (hv : p.val = law x.val) (hf : fits Config.hw p = true) :
    ∃ t, exec i s = .next t ∧ t.reg d = some p ∧ OnlyRegisterChanged d s t := by
  have hcanon := (eq_canon_of_val_eq hw_legal.width.pos hp hv).symm
  have hwrite := commandRR_writes law he (indicesInRange_hw_two d a) hx hcanon hf
  exact ⟨_, exec_of_execute (g := (·.writeReg d p)) (hi.trans hwrite), reg_writeReg_hw _ d p,
    onlyRegisterChanged_writeReg s d p⟩

/-- A pair no longer than the longer of two that are within the capacity is within it. -/
theorem fits_of_length_le_max {cfg : Config} {p x y : BigInt cfg.wordBits}
    (h : p.words.length ≤ max x.words.length y.words.length) (hx : fits cfg x = true) (hy : fits cfg y = true) :
    fits cfg p = true := by
  rcases le_max_iff.mp h with h | h
  · exact fits_mono h hx
  · exact fits_mono h hy

/-! ### The statements of the bitwise engine -/

/-- Settles O43: each algorithm's bits are the law's, and it ends with `normalize`. -/
theorem bitwiseWordAlgorithmsMeetTheLaws : Obligations.BitwiseWordAlgorithmsMeetTheLaws := by
  intro W hW x y
  exact ⟨eq_canon_of_val_eq hW.pos (notWords_normalized x) (notWords_val hW.pos x),
    eq_canon_of_val_eq hW.pos (andWords_normalized x y) (andWords_val hW.pos x y),
    eq_canon_of_val_eq hW.pos (orWords_normalized x y) (orWords_val hW.pos x y),
    eq_canon_of_val_eq hW.pos (xorWords_normalized x y) (xorWords_val hW.pos x y)⟩

/-- Settles O19: the pair written is the one the word algorithm gives, which is no longer than the source. -/
theorem notWritesTheComplement : Obligations.NotWritesTheComplement := by
  intro d a s x he hx hfx
  have hv := notWords_val hw_legal.width.pos x
  obtain ⟨t, ht, hreg, hframe⟩ := exec_rr_writes (i := .not d a) rfl he hx (notWords_normalized x) hv
    (fits_mono (notWords_length_le x) hfx)
  exact ⟨t, notWords x, ht, hreg, notWords_normalized x, hv, rfl, hframe⟩

/-- Settles O20: the pair written is the one the word algorithm gives, which is no longer than the longer source. -/
theorem andWritesTheBitwiseAnd : Obligations.AndWritesTheBitwiseAnd := by
  intro d a b s x y he hx hy hfx hfy
  have hv := andWords_val hw_legal.width.pos x y
  obtain ⟨t, ht, hreg, hframe⟩ := exec_rrr_writes (i := .and d a b) rfl he hx hy (andWords_normalized x y) hv
    (fits_of_length_le_max (andWords_length_le x y) hfx hfy)
  exact ⟨t, andWords x y, ht, hreg, andWords_normalized x y, fun j => by rw [hv, bitOf_andLaw], rfl, hframe⟩

/-- Settles O21: the pair written is the one the word algorithm gives, which is no longer than the longer source. -/
theorem orWritesTheBitwiseOr : Obligations.OrWritesTheBitwiseOr := by
  intro d a b s x y he hx hy hfx hfy
  have hv := orWords_val hw_legal.width.pos x y
  obtain ⟨t, ht, hreg, hframe⟩ := exec_rrr_writes (i := .or d a b) rfl he hx hy (orWords_normalized x y) hv
    (fits_of_length_le_max (orWords_length_le x y) hfx hfy)
  exact ⟨t, orWords x y, ht, hreg, orWords_normalized x y, fun j => by rw [hv, bitOf_orLaw], rfl, hframe⟩

/-- Settles O22: the pair written is the one the word algorithm gives, which is no longer than the longer source. -/
theorem xorWritesTheBitwiseXor : Obligations.XorWritesTheBitwiseXor := by
  intro d a b s x y he hx hy hfx hfy
  have hv := xorWords_val hw_legal.width.pos x y
  obtain ⟨t, ht, hreg, hframe⟩ := exec_rrr_writes (i := .xor d a b) rfl he hx hy (xorWords_normalized x y) hv
    (fits_of_length_le_max (xorWords_length_le x y) hfx hfy)
  exact ⟨t, xorWords x y, ht, hreg, xorWords_normalized x y, fun j => by rw [hv, bitOf_xorLaw], rfl, hframe⟩

end Sys2Proof.Machine
end

section
/-! PROOFS, the shift engine (41_shift.md R66 to R71): what a step does to one word, from these the single-bit steps as
doubling and halving, the word algorithms as the value laws, and the commands that complete. -/

namespace Sys2Proof.Machine

variable {W : Nat}

/-! ### One word of a step (R69, R70) -/

theorem extWord_getLsbD (s : Bool) {i : Nat} (hi : i < W) : (extWord W s).getLsbD i = s := by
  cases s <;> simp [allOnes_eq, hi]

/-- Bit `i` as a number. -/
theorem toNat_getLsbD (w : BitVec W) (i : Nat) : (w.getLsbD i).toNat = w.toNat / 2 ^ i % 2 := by
  rw [← BitVec.testBit_toNat, Nat.toNat_testBit]

theorem two_mul_two_pow_pred (hW : 0 < W) : 2 * 2 ^ (W - 1) = 2 ^ W := by
  rw [← pow_succ', Nat.sub_add_cancel hW]

/-- A word of the left step and the bit it hands up are the word doubled and the carry. -/
theorem shl1_word_toNat (hW : 0 < W) (c : Bool) (w : BitVec W) :
    ((w <<< 1) ||| (if c then 1 else 0)).toNat + 2 ^ W * (w.getLsbD (W - 1)).toNat = 2 * w.toNat + c.toNat := by
  have hpow := two_mul_two_pow_pred hW
  have hone : (if c then 1 else 0 : BitVec W).toNat = c.toNat := by cases c <;> simp [hW]
  have hlow : ((w <<< 1) ||| (if c then 1 else 0)).toNat = 2 * (w.toNat % 2 ^ (W - 1)) + c.toNat := by
    rw [BitVec.toNat_or, hone, BitVec.toNat_shiftLeft, Nat.shiftLeft_eq, pow_one, Nat.mul_comm, ← hpow,
      Nat.mul_mod_mul_left]
    exact (Nat.two_pow_add_eq_or_of_lt (i := 1) c.toNat_lt _).symm
  have htop : w.toNat / 2 ^ (W - 1) < 2 := Nat.div_lt_of_lt_mul (by rw [Nat.mul_comm, hpow]; exact w.isLt)
  have hsplit := Nat.mod_add_div w.toNat (2 ^ (W - 1))
  rw [hlow, toNat_getLsbD, Nat.mod_eq_of_lt htop, ← hpow, Nat.mul_assoc]
  omega

/-- A word of the right step is the half of the word below the bit handed down to it. -/
theorem shr1_word_toNat (hW : 0 < W) (t : Bool) (w : BitVec W) :
    ((w >>> 1) ||| (if t then msbWord W else 0)).toNat = w.toNat / 2 + 2 ^ (W - 1) * t.toNat := by
  have hpow := two_mul_two_pow_pred hW
  have hmsb : (if t then msbWord W else 0).toNat = 2 ^ (W - 1) * t.toNat := by
    cases t
    · simp
    · rw [if_pos rfl, msbWord, BitVec.toNat_ofNat, Nat.mod_eq_of_lt (Nat.two_pow_pred_lt_two_pow hW)]
      simp
  have hhalf : w.toNat / 2 < 2 ^ (W - 1) := Nat.div_lt_of_lt_mul (by rw [hpow]; exact w.isLt)
  rw [BitVec.toNat_or, hmsb, BitVec.toNat_ushiftRight, Nat.shiftRight_eq_div_pow, pow_one, Nat.or_comm,
    ← Nat.two_pow_add_eq_or_of_lt hhalf, Nat.add_comm]

/-! ### The single-bit steps (R69, R70) -/

theorem shl1List_cons (c : Bool) (w : BitVec W) (ws : List (BitVec W)) :
    shl1List c (w :: ws) = (((w <<< 1) ||| (if c then 1 else 0)) :: (shl1List (w.getLsbD (W - 1)) ws).1,
      (shl1List (w.getLsbD (W - 1)) ws).2) := rfl

/-- The words of the left step, completed where the carry out differs from the sign. -/
def completeShl1 (s : Bool) (out : List (BitVec W) × Bool) : List (BitVec W) :=
  if out.2 = s then out.1 else out.1 ++ [if s then notOne W else 1]

theorem shl1_eq (x : BigInt W) : shl1 x = ⟨x.sign, completeShl1 x.sign (shl1List false x.words)⟩ := by
  unfold shl1 completeShl1
  dsimp only
  split <;> rfl

theorem completeShl1_cons (s : Bool) (w : BitVec W) (out : List (BitVec W) × Bool) :
    completeShl1 s (w :: out.1, out.2) = w :: completeShl1 s out := by
  unfold completeShl1
  split <;> rfl

theorem val_completeShl1_nil (hW : 0 < W) (s c : Bool) :
    (⟨s, completeShl1 s ([], c)⟩ : BigInt W).val = 2 * (⟨s, []⟩ : BigInt W).val + c.toNat := by
  have htwo : 2 ≤ 2 ^ W := Nat.le_self_pow hW.ne' 2
  have hone : (1 : BitVec W) ≤ allOnes W := by simp [BitVec.le_def, hW]; omega
  have hnotOne : (notOne W).toNat = 2 ^ W - 2 := by
    rw [notOne, BitVec.toNat_sub_of_le hone]
    simp [hW, Nat.sub_sub]
  cases s <;> cases c
  · simp [completeShl1]
  · simp [completeShl1, val_cons, hW]
  · simp [completeShl1, val_cons, hnotOne, Nat.cast_sub htwo]
    ring
  · simp [completeShl1]

theorem val_completeShl1 (hW : 0 < W) (s c : Bool) (ws : List (BitVec W)) :
    (⟨s, completeShl1 s (shl1List c ws)⟩ : BigInt W).val = 2 * (⟨s, ws⟩ : BigInt W).val + c.toNat := by
  induction ws generalizing c with
  | nil => exact val_completeShl1_nil hW s c
  | cons w ws ih =>
    have hword := congrArg (Nat.cast : Nat → Int) (shl1_word_toNat hW c w)
    push_cast at hword
    rw [shl1List_cons, completeShl1_cons, val_cons, val_cons, ih]
    linear_combination hword

/-- R69: the left step doubles. -/
theorem shl1_val (hW : 0 < W) (x : BigInt W) : (shl1 x).val = 2 * x.val := by
  simpa [shl1_eq] using val_completeShl1 hW x.sign false x.words

/-- The bit a word is filled with is the lowest bit of what stands above it, the sign where nothing does. -/
theorem shr1List_cons (hW : 0 < W) (s : Bool) (w : BitVec W) (ws : List (BitVec W)) :
    shr1List s (w :: ws) =
      ((w >>> 1) ||| (if (⟨s, ws⟩ : BigInt W).val.testBit 0 then msbWord W else 0)) :: shr1List s ws := by
  have hbit := testBit_val hW ⟨s, ws⟩ 0
  rw [Nat.zero_div, Nat.zero_mod] at hbit
  rw [hbit]
  cases ws with
  | nil => rw [eff_nil, extWord_getLsbD s hW]; rfl
  | cons v ws => rfl

/-- R70: the right step halves, rounding down, and leaves what a pair without words stands for. -/
theorem shr1_val (hW : 0 < W) (x : BigInt W) : (shr1 x).val = x.val / 2 := by
  obtain ⟨s, ws⟩ := x
  change (⟨s, shr1List s ws⟩ : BigInt W).val = _
  induction ws with
  | nil => exact (val_nil_div s 1).symm
  | cons w ws ih =>
    have hpow : (2 : Int) * 2 ^ (W - 1) = 2 ^ W := mod_cast two_mul_two_pow_pred hW
    have hbit : (((⟨s, ws⟩ : BigInt W).val.testBit 0).toNat : Int) = (⟨s, ws⟩ : BigInt W).val % 2 := by
      simp [← bitOf_eq_testBit, bitOf]
    have hhalf : (w.toNat + 2 ^ W * (⟨s, ws⟩ : BigInt W).val) / 2 =
        (w.toNat : Int) / 2 + 2 ^ (W - 1) * (⟨s, ws⟩ : BigInt W).val := by
      rw [← hpow, mul_assoc, Int.add_mul_ediv_left _ _ (by decide)]
    have hsplit := Int.emod_add_mul_ediv (⟨s, ws⟩ : BigInt W).val 2
    rw [shr1List_cons hW, val_cons, val_cons, ih, shr1_word_toNat hW, hhalf]
    push_cast
    rw [hbit, ← hpow]
    linear_combination (2 : Int) ^ (W - 1) * hsplit

/-- R71: the word step of SHL commutes with the bit step. -/
theorem shl1_cons_zero (s : Bool) (ws : List (BitVec W)) :
    shl1 ⟨s, 0 :: ws⟩ = ⟨s, 0 :: (shl1 ⟨s, ws⟩).words⟩ := by
  rw [shl1_eq, shl1_eq, shl1List_cons, completeShl1_cons]
  simp

/-- R71: the word step of SHR commutes with the bit step. -/
theorem shr1List_drop_one (s : Bool) (ws : List (BitVec W)) : shr1List s (ws.drop 1) = (shr1List s ws).drop 1 := by
  cases ws <;> rfl

/-! ### The value laws (R67, R68, R71) -/

theorem shlLaw_of_neg (x : Int) {n : Int} (hn : n < 0) : shlLaw x n = 0 := if_pos hn

theorem shrLaw_of_neg (x : Int) {n : Int} (hn : n < 0) : shrLaw x n = 0 := if_pos hn

theorem shrLaw_natCast (x : Int) (n : Nat) : shrLaw x n = x / 2 ^ n := by
  simp [shrLaw, Int.shiftRight_eq_div_pow]

theorem shrLaw_shlLaw (x : Int) (n : Nat) : shrLaw (shlLaw x n) n = x := by
  rw [shlLaw_natCast, shrLaw_natCast, Int.mul_ediv_cancel _ (by positivity)]

theorem shlLaw_add (x : Int) (n m : Nat) : shlLaw x (n + m) = shlLaw (shlLaw x n) m := by
  rw [← Nat.cast_add, shlLaw_natCast, shlLaw_natCast, shlLaw_natCast, pow_add, mul_assoc]

theorem shrLaw_add (x : Int) (n m : Nat) : shrLaw x (n + m) = shrLaw (shrLaw x n) m := by
  rw [← Nat.cast_add, shrLaw_natCast, shrLaw_natCast, shrLaw_natCast, pow_add,
    Int.ediv_ediv_of_nonneg (by positivity)]

/-- The quotient is rounded toward minus infinity. -/
theorem fdiv_two_pow (x : Int) (n : Nat) : Int.fdiv x (2 ^ n) = x / 2 ^ n :=
  Int.fdiv_eq_ediv_of_nonneg x (by positivity)

/-! ### The word algorithms (R67, R68) -/

theorem repeatTimes_shl1_val (hW : 0 < W) (k : Nat) (x : BigInt W) : (repeatTimes shl1 k x).val = x.val * 2 ^ k := by
  induction k generalizing x with
  | zero => simp [repeatTimes]
  | succ k ih => rw [repeatTimes, ih, shl1_val hW]; ring

theorem repeatTimes_shr1_val (hW : 0 < W) (k : Nat) (x : BigInt W) : (repeatTimes shr1 k x).val = x.val / 2 ^ k := by
  induction k generalizing x with
  | zero => simp [repeatTimes]
  | succ k ih => rw [repeatTimes, ih, shr1_val hW, pow_succ', Int.ediv_ediv_of_nonneg (by decide)]

/-- Prepending `m` zero words multiplies by `2^(W·m)`. -/
theorem val_replicate_zero_append (s : Bool) (m : Nat) (ws : List (BitVec W)) :
    (⟨s, List.replicate m 0 ++ ws⟩ : BigInt W).val = (⟨s, ws⟩ : BigInt W).val * 2 ^ (W * m) := by
  induction m with
  | zero => simp
  | succ m ih =>
    have hzero : ((0 : BitVec W).toNat : Int) = 0 := by simp
    rw [List.replicate_succ, List.cons_append, val_cons, ih, hzero, Nat.mul_succ, pow_add]
    ring

/-- SHL by `n` is `n / W` word steps and `n % W` bit steps. -/
theorem shlWords_val (hW : 0 < W) (x : BigInt W) (n : Int) : (shlWords x n).val = shlLaw x.val n := by
  rcases lt_or_ge n 0 with hn | hn
  · rw [shlWords, if_pos hn, shlLaw_of_neg _ hn]
    simp
  · lift n to Nat using hn
    rw [shlWords, if_neg (by omega), normalize_val, repeatTimes_shl1_val hW, val_replicate_zero_append, shlLaw_natCast,
      Int.toNat_natCast, mul_assoc, ← pow_add, Nat.div_add_mod]

/-- SHR by `n` is `n / W` word steps and `n % W` bit steps, of which a pair without words needs none. -/
theorem shrWords_val (hW : 0 < W) (x : BigInt W) (n : Int) : (shrWords x n).val = shrLaw x.val n := by
  rcases lt_or_ge n 0 with hn | hn
  · rw [shrWords, if_pos hn, shrLaw_of_neg _ hn]
    simp
  · lift n to Nat using hn
    obtain ⟨s, ws⟩ := x
    have hlaw : shrLaw (⟨s, ws⟩ : BigInt W).val n = (⟨s, ws.drop (n / W)⟩ : BigInt W).val / 2 ^ (n % W) := by
      rw [shrLaw_natCast, ← val_div_two_pow, Int.ediv_ediv_of_nonneg (by positivity), ← pow_add, Nat.div_add_mod]
    rw [hlaw, shrWords, if_neg (by omega), Int.toNat_natCast]
    dsimp only
    split
    · next hnil => rw [hnil, val_nil_div]
    · rw [normalize_val, repeatTimes_shr1_val hW]

theorem shlWords_normalized (x : BigInt W) (n : Int) : (shlWords x n).Normalized := by
  unfold shlWords
  split
  · exact nil_normalized false
  · exact normalize_normalized _

theorem shrWords_normalized (x : BigInt W) (n : Int) : (shrWords x n).Normalized := by
  obtain ⟨s, ws⟩ := x
  unfold shrWords
  dsimp only
  split
  · exact nil_normalized false
  · split
    · next hnil => rw [hnil]; exact nil_normalized s
    · exact normalize_normalized _

/-- What SHR writes is no longer than its source: the quotient is within the range of the source's words (R68). -/
theorem wordCount_div_le (hW : 0 < W) (x : BigInt W) (n : Nat) : wordCount W (x.val / 2 ^ n) ≤ x.words.length := by
  have hn : (0 : Int) < 2 ^ n := by positivity
  have hgrow : (2 : Int) ^ (W * x.words.length) ≤ 2 ^ (W * x.words.length) * 2 ^ n :=
    le_mul_of_one_le_right (by positivity) hn
  obtain ⟨hlo, hhi⟩ := val_range x
  rw [wordCount_le_iff hW, Int.le_ediv_iff_mul_le hn, Int.ediv_lt_iff_lt_mul hn]
  constructor <;> linarith

/-! ### Commands that complete (R58) -/

/-- An RRR command on this hardware writes the canonical form of its law's value, where that is within the capacity. -/
theorem exec_rrr_writes_canon {i : Instr} {law : Int → Int → Int} {d a b : Reg} {s : State} {x y : Value} {v : Int}
    (hi : execute i s.toMwu = commandRRR law d a b s.toMwu) (he : s.err = false) (hx : s.reg a = some x)
    (hy : s.reg b = some y) (hlaw : law x.val y.val = v) (hf : fits Config.hw (canon Config.hw.wordBits v) = true) :
    ∃ (t : State) (p : Value), exec i s = .next t ∧ t.reg d = some p ∧ p.Normalized ∧ p.val = v ∧
      OnlyRegisterChanged d s t := by
  have hv := canon_val hw_legal.width.pos v
  have hp := canon_normalized hw_legal.width.pos v
  obtain ⟨t, ht, hreg, hframe⟩ := exec_rrr_writes hi he hx hy hp (by rw [hv, hlaw]) hf
  exact ⟨t, _, ht, hreg, hp, hv, hframe⟩

/-- A command whose law gives 0 writes the pair of 0, which is within every capacity. -/
theorem exec_rrr_writes_zero {i : Instr} {law : Int → Int → Int} {d a b : Reg} {s : State} {x y : Value}
    (hi : execute i s.toMwu = commandRRR law d a b s.toMwu) (he : s.err = false) (hx : s.reg a = some x)
    (hy : s.reg b = some y) (hlaw : law x.val y.val = 0) :
    ∃ t, exec i s = .next t ∧ t.reg d = some ⟨false, []⟩ ∧ OnlyRegisterChanged d s t :=
  exec_rrr_writes hi he hx hy (nil_normalized false) (by simp [hlaw]) (fits_of_length_le_one _ (by simp))

/-! ### The statements of the shift engine -/

/-- Settles O23: both laws give 0. -/
theorem negativeShiftAmountGivesZero : Obligations.NegativeShiftAmountGivesZero := by
  intro d a b s x y he hx hy hneg
  exact ⟨exec_rrr_writes_zero (i := .shl d a b) rfl he hx hy (shlLaw_of_neg _ hneg),
    exec_rrr_writes_zero (i := .shr d a b) rfl he hx hy (shrLaw_of_neg _ hneg)⟩

/-- Settles O24: the command writes the canonical form of the product. -/
theorem shlWritesTheProductWithAPowerOfTwo : Obligations.ShlWritesTheProductWithAPowerOfTwo := by
  intro d a b s x y n he hx hy hn hf
  exact exec_rrr_writes_canon (i := .shl d a b) rfl he hx hy (by rw [hn, shlLaw_natCast]) hf

/-- Settles O25: the canonical form of the quotient is no longer than the source, so it is within the capacity. -/
theorem shrWritesTheFloorOfTheQuotient : Obligations.ShrWritesTheFloorOfTheQuotient := by
  intro d a b s x y n he hx hy hn hfx
  have hlen := wordCount_div_le hw_legal.width.pos x n
  rw [fdiv_two_pow]
  exact exec_rrr_writes_canon (i := .shr d a b) rfl he hx hy (by rw [hn, shrLaw_natCast])
    (fits_mono (by rwa [canon_length]) hfx)

/-- Settles O44: by induction on the words, the left step with its carry and completion, the right step with the bit
handed down. -/
theorem singleBitShiftSteps : Obligations.SingleBitShiftSteps := by
  intro W hW x
  exact ⟨shl1_val hW.pos x, fun _ => by rw [shr1_val hW.pos, Int.fdiv_eq_ediv_of_nonneg _ (by decide)]⟩

/-- Settles O45: each algorithm gives a normalized pair of the law's value. -/
theorem shiftWordAlgorithmsMeetTheLaws : Obligations.ShiftWordAlgorithmsMeetTheLaws := by
  intro W hW x n
  exact ⟨eq_canon_of_val_eq hW.pos (shlWords_normalized x n) (shlWords_val hW.pos x n),
    eq_canon_of_val_eq hW.pos (shrWords_normalized x n) (shrWords_val hW.pos x n)⟩

/-- Settles O46: the laws are those of multiplying and dividing by powers of two; a zero word hands up no carry, and
no bit of the lowest word reaches the words above it. -/
theorem shiftLaws : Obligations.ShiftLaws :=
  ⟨shrLaw_shlLaw, fun x n => ⟨shlLaw_natCast x n, by rw [shrLaw_natCast, fdiv_two_pow]⟩,
    fun x n m => ⟨shlLaw_add x n m, shrLaw_add x n m⟩,
    fun _ _ x => ⟨shl1_cons_zero x.sign x.words, shr1List_drop_one x.sign x.words⟩⟩

end Sys2Proof.Machine
end

section
/-! PROOFS, the arithmetic engine (42_arithmetic.md R72 to R88): the adder cell, the ripple and the increment word by
word, from these the word algorithms as the value laws; then the lengths of results, the edges of the capacity, and the
commands that complete. -/

namespace Sys2Proof.Machine

variable {W : Nat}

/-! ### Words and the adder cell (R8, R72, R73) -/

theorem one_toNat (hW : 0 < W) : (1 : BitVec W).toNat = 1 := by simp [hW]

theorem zero_toNat : (0 : BitVec W).toNat = 0 := by simp

theorem msbWord_toNat (hW : 0 < W) : (msbWord W).toNat = 2 ^ (W - 1) := by
  rw [msbWord, BitVec.toNat_ofNat, Nat.mod_eq_of_lt (Nat.two_pow_pred_lt_two_pow hW)]

theorem allButMsb_toNat (hW : 0 < W) : (allButMsb W).toNat = 2 ^ (W - 1) - 1 := by
  have hone : (1 : BitVec W) ≤ msbWord W := by
    rw [BitVec.le_def, one_toNat hW, msbWord_toNat hW]
    exact Nat.one_le_two_pow
  rw [allButMsb, BitVec.toNat_sub_of_le hone, msbWord_toNat hW, one_toNat hW]

/-- A word without its top bit. -/
theorem and_allButMsb_toNat (hW : 0 < W) (w : BitVec W) : (w &&& allButMsb W).toNat = w.toNat % 2 ^ (W - 1) := by
  rw [BitVec.toNat_and, allButMsb_toNat hW, Nat.and_two_pow_sub_one_eq_mod]

/-- A word is its low bits and its top bit. -/
theorem toNat_eq_low_add_msb (hW : 0 < W) (w : BitVec W) :
    w.toNat = w.toNat % 2 ^ (W - 1) + 2 ^ (W - 1) * (w.getLsbD (W - 1)).toNat := by
  have htop : w.toNat / 2 ^ (W - 1) < 2 :=
    Nat.div_lt_of_lt_mul (by rw [Nat.mul_comm, two_mul_two_pow_pred hW]; exact w.isLt)
  rw [toNat_getLsbD, Nat.mod_eq_of_lt htop, Nat.mod_add_div]

/-- Setting a top bit that is 0 adds it. -/
theorem or_msbWord_toNat (hW : 0 < W) {w : BitVec W} (h : w.toNat < 2 ^ (W - 1)) :
    (w ||| msbWord W).toNat = w.toNat + 2 ^ (W - 1) := by
  have hmsb : (msbWord W).toNat = 2 ^ (W - 1) * 1 := by rw [msbWord_toNat hW, Nat.mul_one]
  rw [BitVec.toNat_or, hmsb, Nat.or_comm, ← Nat.two_pow_add_eq_or_of_lt h, Nat.mul_one, Nat.add_comm]

/-- The increment of a word wraps at ALL_ONES alone. -/
theorem add_one_eq_zero_iff (w : BitVec W) : w + 1 = 0 ↔ w = allOnes W := by
  rw [← eq_neg_iff_add_eq_zero, allOnes_eq, ← BitVec.neg_one_eq_allOnes]
  rfl

theorem add_one_toNat (hW : 0 < W) {w : BitVec W} (h : w ≠ allOnes W) : (w + 1).toNat = w.toNat + 1 := by
  have hne : w.toNat ≠ 2 ^ W - 1 := fun h' => h (BitVec.eq_of_toNat_eq (by rw [h', allOnes_toNat]))
  have hlt := w.isLt
  rw [BitVec.toNat_add, one_toNat hW, Nat.mod_eq_of_lt (by omega)]

/-- Without a carry in: the low bits are added where no carry can be lost, and the top bits decide the rest. -/
theorem addCell_false (hW : 0 < W) (a b : BitVec W) :
    a.toNat + b.toNat = (addCell a b false).1.toNat + (addCell a b false).2.toNat * 2 ^ W := by
  have hpow := two_mul_two_pow_pred hW
  have ha := toNat_eq_low_add_msb hW a
  have hb := toNat_eq_low_add_msb hW b
  have hla := Nat.mod_lt a.toNat (Nat.two_pow_pos (W - 1))
  have hlb := Nat.mod_lt b.toNat (Nat.two_pow_pos (W - 1))
  have hu : ((a &&& allButMsb W) + (b &&& allButMsb W)).toNat = a.toNat % 2 ^ (W - 1) + b.toNat % 2 ^ (W - 1) := by
    rw [BitVec.toNat_add, and_allButMsb_toNat hW, and_allButMsb_toNat hW, Nat.mod_eq_of_lt (by omega)]
  have hsplit := toNat_eq_low_add_msb hW ((a &&& allButMsb W) + (b &&& allButMsb W))
  simp only [addCell, Bool.false_eq_true, if_false]
  generalize (a &&& allButMsb W) + (b &&& allButMsb W) = u at hu hsplit ⊢
  by_cases ht : a.getLsbD (W - 1) = b.getLsbD (W - 1)
  · rw [if_neg (not_not.mpr ht), ha, hb, ← ht, hu, ← hpow]
    ring
  · have hone : (a.getLsbD (W - 1)).toNat + (b.getLsbD (W - 1)).toNat = 1 := by
      revert ht
      cases a.getLsbD (W - 1) <;> cases b.getLsbD (W - 1) <;> decide
    have hsum : a.toNat + b.toNat = u.toNat + 2 ^ (W - 1) := by
      rw [ha, hb, hu]
      linear_combination 2 ^ (W - 1) * hone
    rw [if_pos ht, hsum]
    cases hmsb : u.getLsbD (W - 1)
    · have hlow : u.toNat < 2 ^ (W - 1) := by
        rw [hsplit, hmsb]
        exact Nat.mod_lt _ (Nat.two_pow_pos (W - 1))
      simp [or_msbWord_toNat hW hlow]
    · rw [hmsb] at hsplit
      simp only [if_true, and_allButMsb_toNat hW, Bool.toNat_true] at hsplit ⊢
      omega

/-- The carry in is added last, and carries out where it wraps the word. -/
theorem addCell_true (a b : BitVec W) :
    addCell a b true =
      ((addCell a b false).1 + 1, (addCell a b false).2 || decide ((addCell a b false).1 + 1 = 0)) := rfl

/-- R72: the cell's word and carry out make up the sum. -/
theorem addCell_toNat (hW : 0 < W) (a b : BitVec W) (cin : Bool) :
    a.toNat + b.toNat + cin.toNat = (addCell a b cin).1.toNat + (addCell a b cin).2.toNat * 2 ^ W := by
  have hsum := addCell_false hW a b
  cases cin
  · exact hsum
  · have ha := a.isLt
    have hb := b.isLt
    rw [addCell_true]
    generalize addCell a b false = cell at hsum ⊢
    obtain ⟨r, c⟩ := cell
    dsimp only at hsum ⊢
    rw [hsum]
    by_cases hr : r = allOnes W
    · have hrn : r.toNat = 2 ^ W - 1 := by rw [hr, allOnes_toNat]
      have hc : c = false := by
        cases c
        · rfl
        · rw [hrn, Bool.toNat_true] at hsum
          omega
      rw [(add_one_eq_zero_iff r).mpr hr, hrn, hc, zero_toNat, decide_eq_true rfl, Bool.false_or, Bool.toNat_true,
        Bool.toNat_false]
      omega
    · rw [add_one_toNat hW hr, decide_eq_false (mt (add_one_eq_zero_iff r).mp hr), Bool.or_false, Bool.toNat_true]
      ring

/-! ### The ripple adder (R74, R75) -/

/-- The words of a pair below a position are digits, and those above it a pair of the same sign. -/
theorem val_append (s : Bool) (ws us : List (BitVec W)) :
    (⟨s, ws ++ us⟩ : BigInt W).val = wordsSum ws + 2 ^ (W * ws.length) * (⟨s, us⟩ : BigInt W).val := by
  induction ws with
  | nil => simp
  | cons w ws ih =>
    rw [List.cons_append, val_cons, ih, wordsSum_cons, List.length_cons, Nat.mul_succ, pow_add]
    push_cast
    ring

/-- What stands at a position and above it is the effective word there and what stands above that. -/
theorem val_div_eq_eff_add (x : BigInt W) (i : Nat) :
    x.val / 2 ^ (W * i) = (x.eff i).toNat + 2 ^ W * (x.val / 2 ^ (W * (i + 1))) := by
  have hstep : x.val / 2 ^ (W * (i + 1)) = x.val / 2 ^ (W * i) / 2 ^ W := by
    rw [Int.ediv_ediv_of_nonneg (by positivity), Nat.mul_succ, pow_add]
  rw [eff_toNat, hstep, Int.emod_add_mul_ediv]

/-- Above its stored words a pair holds only its sign. -/
theorem val_div_of_length_le (x : BigInt W) {m : Nat} (h : x.words.length ≤ m) :
    x.val / 2 ^ (W * m) = -(x.sign.toNat : Int) := by
  obtain ⟨s, ws⟩ := x
  rw [val_div_two_pow, List.drop_eq_nil_of_le h, val_nil]
  cases s <;> rfl

theorem ripple_length (x y : BigInt W) (m i : Nat) (c : Bool) : (ripple x y m i c).1.length = m := by
  induction m generalizing i c with
  | zero => rfl
  | succ m ih => exact congrArg Nat.succ (ih _ _)

/-- `m` positions from position `i`: the words so far, the carry, and what stands above. -/
theorem ripple_sum (hW : 0 < W) (x y : BigInt W) (m i : Nat) (c : Bool) :
    x.val / 2 ^ (W * i) + y.val / 2 ^ (W * i) + c.toNat = wordsSum (ripple x y m i c).1 +
      ((ripple x y m i c).2.toNat + x.val / 2 ^ (W * (i + m)) + y.val / 2 ^ (W * (i + m))) * 2 ^ (W * m) := by
  induction m generalizing i c with
  | zero =>
    simp only [ripple, wordsSum_nil, Nat.add_zero, Nat.mul_zero, pow_zero, mul_one, Nat.cast_zero]
    ring
  | succ m ih =>
    have hcell := congrArg (Nat.cast : Nat → Int) (addCell_toNat hW (x.eff i) (y.eff i) c)
    have hrest := ih (i + 1) (addCell (x.eff i) (y.eff i) c).2
    push_cast at hcell
    rw [Nat.add_right_comm i 1 m] at hrest
    rw [ripple, val_div_eq_eff_add x i, val_div_eq_eff_add y i]
    dsimp only
    rw [wordsSum_cons, Nat.mul_succ W m, pow_add, ← Nat.add_assoc]
    push_cast
    linear_combination hcell + 2 ^ W * hrest

/-- R75: with every stored word added, what is left is the carry and the two signs. -/
theorem ripple_total (hW : 0 < W) (x y : BigInt W) :
    x.val + y.val = wordsSum (ripple x y (max x.words.length y.words.length) 0 false).1 +
      (((ripple x y (max x.words.length y.words.length) 0 false).2.toNat : Int) - x.sign.toNat - y.sign.toNat) *
        2 ^ (W * max x.words.length y.words.length) := by
  have h := ripple_sum hW x y (max x.words.length y.words.length) 0 false
  rw [Nat.zero_add, val_div_of_length_le x (le_max_left ..), val_div_of_length_le y (le_max_right ..)] at h
  simpa [sub_eq_add_neg] using h

theorem notOne_toNat (hW : 0 < W) : (notOne W).toNat = 2 ^ W - 2 := by
  have htwo : 2 ≤ 2 ^ W := Nat.le_self_pow hW.ne' 2
  have hone : (1 : BitVec W) ≤ allOnes W := by
    rw [BitVec.le_def, one_toNat hW, allOnes_toNat]
    omega
  rw [notOne, BitVec.toNat_sub_of_le hone, allOnes_toNat, one_toNat hW, Nat.sub_sub]

/-- R75: the table's sign and extra word stand for the last carry and the two signs. -/
theorem finalCarry_val (hW : 0 < W) (c sx sy : Bool) :
    (⟨(finalCarry W c sx sy).1, (finalCarry W c sx sy).2⟩ : BigInt W).val = (c.toNat : Int) - sx.toNat - sy.toNat := by
  have htwo : 2 ≤ 2 ^ W := Nat.le_self_pow hW.ne' 2
  have hnotOne : ((notOne W).toNat : Int) = 2 ^ W - 2 := by
    rw [notOne_toNat hW, Nat.cast_sub htwo, Nat.cast_pow, Nat.cast_ofNat]
  cases c <;> cases sx <;> cases sy <;> simp [finalCarry, val_cons, hW, hnotOne]
  ring

/-- R74: the adder adds. -/
theorem addWords_val (hW : 0 < W) (x y : BigInt W) : (addWords x y).val = x.val + y.val := by
  rw [addWords, normalize_val, val_append, finalCarry_val hW, ripple_length, ripple_total hW x y]
  ring

theorem addWords_normalized (x y : BigInt W) : (addWords x y).Normalized := normalize_normalized _

/-! ### The increment (R76) -/

theorem incList_allOnes_cons (ws : List (BitVec W)) : incList (allOnes W :: ws) = 0 :: incList ws := if_pos rfl

theorem incList_cons_of_ne {w : BitVec W} (h : w ≠ allOnes W) (ws : List (BitVec W)) :
    incList (w :: ws) = (w + 1) :: ws := if_neg h

theorem incList_ne_nil (ws : List (BitVec W)) : incList ws ≠ [] := by
  cases ws with
  | nil => exact List.cons_ne_nil _ _
  | cons w ws => unfold incList; split <;> exact List.cons_ne_nil _ _

/-- The words of the increment stand for the successor, except of -1 written in ALL_ONES words, which they leave without
a word to add 1 to. -/
theorem incList_val (hW : 0 < W) (s : Bool) (ws : List (BitVec W)) (h : s = true → ∃ w ∈ ws, w ≠ allOnes W) :
    (⟨s, incList ws⟩ : BigInt W).val = (⟨s, ws⟩ : BigInt W).val + 1 := by
  induction ws with
  | nil =>
    have hs : s = false := by simpa using h
    simp [hs, incList, val_cons, hW]
  | cons w ws ih =>
    by_cases hw : w = allOnes W
    · have hrest : s = true → ∃ w ∈ ws, w ≠ allOnes W := by simpa [hw] using h
      have hones : ((allOnes W).toNat : Int) = 2 ^ W - 1 := by
        rw [allOnes_toNat, Nat.cast_sub Nat.one_le_two_pow, Nat.cast_pow, Nat.cast_ofNat, Nat.cast_one]
      rw [hw, incList_allOnes_cons, val_cons, val_cons, ih hrest, zero_toNat, hones, Nat.cast_zero]
      ring
    · rw [incList_cons_of_ne hw, val_cons, val_cons, add_one_toNat hW hw]
      push_cast
      ring

/-- A pair of sign 1 with ALL_ONES words is -1 (R16). -/
theorem val_of_all_allOnes {x : BigInt W} (hs : x.sign = true) (h : ∀ w ∈ x.words, w = allOnes W) : x.val = -1 := by
  obtain ⟨s, ws⟩ := x
  obtain rfl : s = true := hs
  have hval := val_append_extWord (W := W) true [] ws.length
  rw [extWord_true, List.nil_append, ← List.eq_replicate_of_mem h] at hval
  rw [hval, val_nil, if_pos rfl]

/-- `incv` on -1 in ALL_ONES words, and on every other pair. -/
theorem incWords_cases (x : BigInt W) :
    (x.sign = true ∧ (∀ w ∈ x.words, w = allOnes W) ∧ incWords x = ⟨false, []⟩) ∨
    ((x.sign = true → ∃ w ∈ x.words, w ≠ allOnes W) ∧
      incWords x =
        if x.sign then BigInt.normalize ⟨x.sign, incList x.words⟩ else ⟨x.sign, incList x.words⟩) := by
  unfold incWords
  split
  · next h => exact .inl ⟨h.1, by simpa using h.2, rfl⟩
  · next h => exact .inr ⟨by simpa using h, rfl⟩

/-- R76: the increment adds one. -/
theorem incWords_val (hW : 0 < W) (x : BigInt W) : (incWords x).val = x.val + 1 := by
  rcases incWords_cases x with ⟨hs, hall, h⟩ | ⟨hex, h⟩
  · rw [h, val_of_all_allOnes hs hall]
    simp
  · have hval := incList_val hW x.sign x.words hex
    rw [h]
    split
    · rw [normalize_val, hval]
    · rw [hval]

/-- A pair is normalized exactly when its last word is not its extension word. -/
theorem normalized_iff (p : BigInt W) : p.Normalized ↔ p.words.getLast? ≠ some (extWord W p.sign) := by
  constructor
  · intro h
    have hlast := normalize_getLast?_ne p
    rwa [h] at hlast
  · intro h
    refine congrArg (BigInt.mk p.sign) (List.rdropWhile_eq_self_iff.mpr fun hne hlast => h ?_)
    rw [List.getLast?_eq_some_getLast hne, of_decide_eq_true hlast]

/-- The increment of words that do not end in 0 does not end in 0. -/
theorem incList_getLast?_ne (hW : 0 < W) (ws : List (BitVec W)) (h : ws.getLast? ≠ some 0) :
    (incList ws).getLast? ≠ some 0 := by
  induction ws with
  | nil => simp [incList, hW.ne']
  | cons w ws ih =>
    by_cases hw : w = allOnes W
    · rw [hw, incList_allOnes_cons, List.getLast?_cons_of_ne_nil (incList_ne_nil ws)]
      exact ih fun hlast => h (List.mem_getLast?_cons hlast)
    · rw [incList_cons_of_ne hw]
      cases ws with
      | nil => exact fun hlast => hw ((add_one_eq_zero_iff w).mp (Option.some_inj.mp hlast))
      | cons v ws => simpa only [List.getLast?_cons_cons] using h

/-- R76: from a normalized pair of sign 0 the increment gives a normalized pair, with no `normalize` run. -/
theorem incWords_normalized_of_not_sign (hW : 0 < W) {x : BigInt W} (hs : x.sign = false) (hx : x.Normalized) :
    (incWords x).Normalized := by
  rcases incWords_cases x with ⟨hs', -, -⟩ | ⟨-, h⟩
  · rw [hs] at hs'
    cases hs'
  · rw [hs, if_neg (by decide)] at h
    rw [normalized_iff, hs] at hx
    rw [h, normalized_iff]
    exact incList_getLast?_ne hW x.words hx

theorem incWords_normalized (hW : 0 < W) {x : BigInt W} (hx : x.Normalized) : (incWords x).Normalized := by
  cases hs : x.sign
  · exact incWords_normalized_of_not_sign hW hs hx
  · rcases incWords_cases x with ⟨-, -, h⟩ | ⟨-, h⟩
    · rw [h]
      exact nil_normalized false
    · rw [hs, if_pos rfl] at h
      rw [h]
      exact normalize_normalized _

/-! ### NEG, DEC and SUB (R77, R79, R81) -/

theorem negWords_val (hW : 0 < W) (x : BigInt W) : (negWords x).val = -x.val := by
  rw [negWords, incWords_val hW, notWords_val hW, notLaw, sub_add_cancel]

theorem negWords_normalized (hW : 0 < W) (x : BigInt W) : (negWords x).Normalized :=
  incWords_normalized hW (notWords_normalized x)

theorem decWords_val (hW : 0 < W) (x : BigInt W) : (decWords x).val = x.val - 1 := by
  rw [decWords, notWords_val hW, incWords_val hW, notWords_val hW, notLaw, notLaw]
  ring

theorem decWords_normalized (x : BigInt W) : (decWords x).Normalized := notWords_normalized _

theorem subWords_val (hW : 0 < W) (x y : BigInt W) : (subWords x y).val = x.val - y.val := by
  rw [subWords, addWords_val hW, negWords_val hW, sub_eq_add_neg]

theorem subWords_normalized (x y : BigInt W) : (subWords x y).Normalized := addWords_normalized _ _

/-! ### MUL (R82, R85) -/

/-- After `j` rounds the loop has added `ax` for each of the `j` lowest bits of `ay`. -/
theorem mulLoop_eq (ax ay n j : Nat) (h : ay < 2 ^ (j + n)) :
    mulLoop ay n (2 ^ j) (2 ^ j * ax) (ax * (ay % 2 ^ j)) = ax * ay := by
  induction n generalizing j with
  | zero => rw [mulLoop, Nat.mod_eq_of_lt (by simpa using h)]
  | succ n ih =>
    rw [mulLoop]
    split
    · have hbit : (if ay &&& 2 ^ j ≠ 0 then ax * (ay % 2 ^ j) + 2 ^ j * ax else ax * (ay % 2 ^ j)) =
          ax * (ay % 2 ^ (j + 1)) := by
        rw [Nat.mod_pow_succ, ← Nat.toNat_testBit, Nat.and_two_pow]
        cases ay.testBit j
        · simp
        · simp [Nat.mul_add, Nat.mul_comm]
      rw [hbit, ← mul_assoc, ← pow_succ']
      exact ih (j + 1) (by rwa [Nat.add_assoc, Nat.add_comm 1])
    · next hlt => rw [Nat.mod_eq_of_lt (not_le.mp hlt)]

/-- The magnitudes multiplied, and the sign from the two signs. -/
theorem natAbs_mul_natAbs (x y : BigInt W) :
    (if x.sign ≠ y.sign then -((x.val.natAbs * y.val.natAbs : Nat) : Int) else (x.val.natAbs * y.val.natAbs : Nat)) =
      x.val * y.val := by
  have habs (p : BigInt W) : (p.val.natAbs : Int) = if p.sign then -p.val else p.val := by
    rw [sign_eq_decide]
    simp only [decide_eq_true_iff]
    split <;> omega
  push_cast [habs]
  cases x.sign <;> cases y.sign <;> simp

theorem mulWords_eq (x y : BigInt W) : mulWords x y = canon W (x.val * y.val) := by
  have hlt : y.val.natAbs < 2 ^ (0 + bitCount y.val.natAbs) := by
    rw [Nat.zero_add]
    exact (bitCount_le_iff _ _).mp le_rfl
  have hloop := mulLoop_eq x.val.natAbs y.val.natAbs _ 0 hlt
  rw [pow_zero, Nat.one_mul, Nat.mod_one, Nat.mul_zero] at hloop
  rw [← natAbs_mul_natAbs, mulWords, hloop]
  split <;> rfl

theorem mulWords_val (hW : 0 < W) (x y : BigInt W) : (mulWords x y).val = x.val * y.val := by
  rw [mulWords_eq, canon_val hW]

theorem mulWords_normalized (hW : 0 < W) (x y : BigInt W) : (mulWords x y).Normalized := by
  rw [mulWords_eq]
  exact canon_normalized hW _

/-! ### BITLEN (R83) -/

/-- The bits of a number are those above position `n` and the `n` below. -/
theorem bitCount_add_two_pow_mul {lo hi : Nat} (n : Nat) (hlo : lo < 2 ^ n) (hhi : 0 < hi) :
    bitCount (lo + 2 ^ n * hi) = n + bitCount hi := by
  refine eq_of_forall_ge_iff fun j => ?_
  rw [bitCount_le_iff]
  rcases Nat.lt_or_ge j n with hj | hj
  · have hpow : 2 ^ j ≤ 2 ^ n * hi := (Nat.pow_le_pow_right two_pos hj.le).trans (Nat.le_mul_of_pos_right _ hhi)
    omega
  · obtain ⟨i, rfl⟩ := Nat.exists_eq_add_of_le hj
    rw [pow_add, Nat.add_le_add_iff_left, bitCount_le_iff, Nat.mul_comm (2 ^ n) (2 ^ i),
      ← Nat.div_lt_iff_lt_mul (Nat.two_pow_pos n), Nat.add_mul_div_left _ _ (Nat.two_pow_pos n),
      Nat.div_eq_of_lt hlo, Nat.zero_add]

theorem bitlenLaw_of_nonpos {x : Int} (h : x ≤ 0) : bitlenLaw x = 0 := if_pos h

/-- The law is the bit count of the value, a negative value counting as 0. -/
theorem bitlenLaw_eq_bitCount (x : Int) : bitlenLaw x = bitCount x.toNat := by
  unfold bitlenLaw
  split
  · next h => simp [Int.toNat_of_nonpos h, bitCount]
  · rfl

/-- R83: on a normalized pair of sign 0 the top word is not 0, and the bits are its own and all those below it. -/
theorem bitlenWords_eq {x : BigInt W} (hx : x.Normalized) : (bitlenWords x : Int) = bitlenLaw x.val := by
  obtain ⟨s, ws⟩ := x
  cases s
  · rw [normalized_iff] at hx
    rcases List.eq_nil_or_concat' ws with rfl | ⟨low, top, rfl⟩
    · simp [bitlenWords, bitlenLaw]
    · have htop : 0 < top.toNat := by
        refine Nat.pos_of_ne_zero fun hzero => hx ?_
        rw [List.getLast?_concat, extWord_false]
        exact congrArg some (BitVec.eq_of_toNat_eq (by simpa using hzero))
      have hval : (⟨false, low ++ [top]⟩ : BigInt W).val =
          ((wordsSum low + 2 ^ (W * low.length) * top.toNat : Nat) : Int) := by
        rw [val_append, val_cons]
        simp
      rw [hval, bitlenLaw_eq_bitCount, Int.toNat_natCast, bitCount_add_two_pow_mul _ (wordsSum_lt low) htop]
      simp [bitlenWords]
  · have := (val_range_of_sign ⟨true, ws⟩ rfl).2
    rw [bitlenLaw_of_nonpos (by omega)]
    rfl

/-! ### Lengths of results (R87) -/

theorem canon_length_le_iff (hW : 0 < W) (v : Int) (k : Nat) :
    (canon W v).words.length ≤ k ↔ -(2 ^ (W * k)) ≤ v ∧ v < 2 ^ (W * k) := by
  rw [canon_length, wordCount_le_iff hW]

/-- One word more holds twice the range. -/
theorem two_mul_two_pow_le (hW : 0 < W) (k : Nat) : (2 : Int) * 2 ^ (W * k) ≤ 2 ^ (W * (k + 1)) := by
  have htwo : (2 : Int) ≤ 2 ^ W := le_self_pow₀ (by decide) hW.ne'
  rw [Nat.mul_succ, pow_add, mul_comm]
  exact mul_le_mul_of_nonneg_left htwo (by positivity)

theorem val_range_of_length_le (x : BigInt W) {k : Nat} (h : x.words.length ≤ k) :
    -(2 ^ (W * k)) ≤ x.val ∧ x.val < 2 ^ (W * k) := by
  have hpow : (2 : Int) ^ (W * x.words.length) ≤ 2 ^ (W * k) :=
    pow_le_pow_right₀ (by decide) (Nat.mul_le_mul_left W h)
  have := val_range x
  omega

/-- A value within twice the range of `k` words is within that of one word more. -/
theorem canon_length_le_succ (hW : 0 < W) {v : Int} {k : Nat}
    (h : -(2 * 2 ^ (W * k)) ≤ v ∧ v < 2 * 2 ^ (W * k)) : (canon W v).words.length ≤ k + 1 := by
  have := two_mul_two_pow_le hW k
  rw [canon_length_le_iff hW]
  omega

theorem canon_add_length_le (hW : 0 < W) (x y : BigInt W) :
    (canon W (x.val + y.val)).words.length ≤ max x.words.length y.words.length + 1 := by
  have := val_range_of_length_le x (le_max_left x.words.length y.words.length)
  have := val_range_of_length_le y (le_max_right x.words.length y.words.length)
  exact canon_length_le_succ hW (by omega)

theorem canon_sub_length_le (hW : 0 < W) (x y : BigInt W) :
    (canon W (x.val - y.val)).words.length ≤ max x.words.length y.words.length + 1 := by
  have := val_range_of_length_le x (le_max_left x.words.length y.words.length)
  have := val_range_of_length_le y (le_max_right x.words.length y.words.length)
  exact canon_length_le_succ hW (by omega)

theorem canon_mul_length_le (hW : 0 < W) (x y : BigInt W) :
    (canon W (x.val * y.val)).words.length ≤ x.words.length + y.words.length + 1 := by
  have hx : |x.val| ≤ 2 ^ (W * x.words.length) := abs_le.mpr ⟨(val_range x).1, (val_range x).2.le⟩
  have hy : |y.val| ≤ 2 ^ (W * y.words.length) := abs_le.mpr ⟨(val_range y).1, (val_range y).2.le⟩
  have hxy : |x.val * y.val| ≤ 2 ^ (W * (x.words.length + y.words.length)) := by
    rw [abs_mul, Nat.mul_add, pow_add]
    exact mul_le_mul hx hy (abs_nonneg _) (by positivity)
  have hpos : (0 : Int) < 2 ^ (W * (x.words.length + y.words.length)) := by positivity
  obtain ⟨hlo, hhi⟩ := abs_le.mp hxy
  exact canon_length_le_succ hW (by omega)

theorem canon_bitlen_length_of_nonpos (hW : 0 < W) {x : BigInt W} (h : x.val ≤ 0) :
    (canon W (bitlenLaw x.val)).words.length = 0 := by
  rw [bitlenLaw_of_nonpos h, canon_zero hW]
  rfl

theorem toNat_val_lt (x : BigInt W) : x.val.toNat < 2 ^ (W * x.words.length) := by
  have hpos := Nat.two_pow_pos (W * x.words.length)
  have hlt : x.val < ((2 ^ (W * x.words.length) : Nat) : Int) := by simpa using (val_range x).2
  omega

/-- The bit length of a value is no longer than the value. -/
theorem canon_bitlen_length_le (hW : 0 < W) (x : BigInt W) :
    (canon W (bitlenLaw x.val)).words.length ≤ x.words.length := by
  have hbits : bitCount x.val.toNat ≤ x.val.toNat := (bitCount_le_iff _ _).mpr Nat.lt_two_pow_self
  have hlt : (bitCount x.val.toNat : Int) < 2 ^ (W * x.words.length) := mod_cast hbits.trans_lt (toNat_val_lt x)
  have hpos : (0 : Int) < 2 ^ (W * x.words.length) := by positivity
  rw [canon_length_le_iff hW, bitlenLaw_eq_bitCount]
  omega

theorem one_le_bitCount {m : Nat} (h : 0 < m) : 1 ≤ bitCount m := by
  by_contra hlt
  have := (bitCount_le_iff m 0).mp (by omega)
  omega

/-- The bit length of a positive value of `n` words at most takes one word, where `W·n` does. -/
theorem canon_bitlen_length_of_pos (hW : 0 < W) {x : BigInt W} {n : Nat} (hx : 0 < x.val) (hn : x.words.length ≤ n)
    (hfit : W * n < 2 ^ W) : (canon W (bitlenLaw x.val)).words.length = 1 := by
  have hone := one_le_bitCount (show 0 < x.val.toNat by omega)
  have hbits : bitCount x.val.toNat < 2 ^ W :=
    ((bitCount_le_iff _ _).mpr (toNat_val_lt x)).trans_lt ((Nat.mul_le_mul_left W hn).trans_lt hfit)
  have hhi : (canon W (bitlenLaw x.val)).words.length ≤ 1 := by
    rw [canon_length_le_iff hW, bitlenLaw_eq_bitCount, Nat.mul_one]
    have : (bitCount x.val.toNat : Int) < 2 ^ W := mod_cast hbits
    omega
  have hlo : ¬(canon W (bitlenLaw x.val)).words.length ≤ 0 := by
    rw [canon_length_le_iff hW, bitlenLaw_eq_bitCount, Nat.mul_zero, pow_zero]
    omega
  omega

/-! ### The edges of the capacity (R77 to R79, R129) -/

/-- With a bound of `n` words, a pair within the capacity is within the range of `n` words. -/
theorem val_range_of_fits {cfg : Config} {n : Nat} {hn : 0 < n} (hm : cfg.maxWords = .bounded n hn)
    {x : BigInt cfg.wordBits} (hx : fits cfg x = true) :
    -(2 ^ (cfg.wordBits * n)) ≤ x.val ∧ x.val < 2 ^ (cfg.wordBits * n) := by
  rw [fits_of_bounded x hn hm, decide_eq_true_iff] at hx
  exact val_range_of_length_le x hx

/-- A value other than 0 shifted by more than `W·n` is out of the range of `n` words. -/
theorem mul_two_pow_out_of_range {v : Int} {k m : Nat} (hv : v ≠ 0) (hk : k < m) :
    v * 2 ^ m < -(2 ^ k) ∨ 2 ^ k ≤ v * 2 ^ m := by
  have hpow : (2 : Int) ^ k < 2 ^ m := pow_lt_pow_right₀ (by decide) hk
  have hpos : (0 : Int) < 2 ^ m := by positivity
  rcases lt_or_gt_of_ne hv with hneg | hgt
  · left
    nlinarith
  · right
    nlinarith

/-! ### Commands that complete (R58) -/

/-- An RR command on this hardware writes the canonical form of its law's value, where that is within the capacity. -/
theorem exec_rr_writes_canon {i : Instr} {law : Int → Int} {d a : Reg} {s : State} {x : Value} {v : Int}
    (hi : execute i s.toMwu = commandRR law d a s.toMwu) (he : s.err = false) (hx : s.reg a = some x)
    (hlaw : law x.val = v) (hf : fits Config.hw (canon Config.hw.wordBits v) = true) :
    ∃ (t : State) (p : Value), exec i s = .next t ∧ t.reg d = some p ∧ p.Normalized ∧ p.val = v ∧
      OnlyRegisterChanged d s t := by
  have hv := canon_val hw_legal.width.pos v
  have hp := canon_normalized hw_legal.width.pos v
  obtain ⟨t, ht, hreg, hframe⟩ := exec_rr_writes hi he hx hp (by rw [hv, hlaw]) hf
  exact ⟨t, _, ht, hreg, hp, hv, hframe⟩

/-! ### The statements of the arithmetic engine -/

/-- Settles O26: the command writes the canonical form of the negation. -/
theorem negWritesTheNegation : Obligations.NegWritesTheNegation :=
  fun d a _ _ he hx hf => exec_rr_writes_canon (i := .neg d a) rfl he hx rfl hf

/-- Settles O27: the command writes the canonical form of the successor. -/
theorem incWritesTheSuccessor : Obligations.IncWritesTheSuccessor :=
  fun d a _ _ he hx hf => exec_rr_writes_canon (i := .inc d a) rfl he hx rfl hf

/-- Settles O28: the command writes the canonical form of the predecessor. -/
theorem decWritesThePredecessor : Obligations.DecWritesThePredecessor :=
  fun d a _ _ he hx hf => exec_rr_writes_canon (i := .dec d a) rfl he hx rfl hf

/-- Settles O29: the command writes the canonical form of the sum. -/
theorem addWritesTheSum : Obligations.AddWritesTheSum :=
  fun d a b _ _ _ he hx hy hf => exec_rrr_writes_canon (i := .add d a b) rfl he hx hy rfl hf

/-- Settles O30: the command writes the canonical form of the difference, and no negation is tested on the way. -/
theorem subWritesTheDifference : Obligations.SubWritesTheDifference :=
  fun d a b _ _ _ he hx hy hf => exec_rrr_writes_canon (i := .sub d a b) rfl he hx hy rfl hf

/-- Settles O31: the command writes the canonical form of the product. -/
theorem mulWritesTheProduct : Obligations.MulWritesTheProduct :=
  fun d a b _ _ _ he hx hy hf => exec_rrr_writes_canon (i := .mul d a b) rfl he hx hy rfl hf

/-- Settles O32: the bit count is the least sufficient number of bits, and it is no longer than the source, so it is
within the capacity. -/
theorem bitlenWritesTheBitLength : Obligations.BitlenWritesTheBitLength := by
  intro d a s x he hx hfx
  obtain ⟨t, p, ht, hreg, hp, hv, hframe⟩ := exec_rr_writes_canon (i := .bitlen d a) rfl he hx
    (bitlenLaw_eq_bitCount x.val)
    (by rw [← bitlenLaw_eq_bitCount]; exact fits_mono (canon_bitlen_length_le hw_legal.width.pos x) hfx)
  have hlt (c : Nat) : bitCount x.val.toNat ≤ c ↔ x.val < 2 ^ c := by
    have hcast : ((2 ^ c : Nat) : Int) = 2 ^ c := by simp
    have hpos := Nat.two_pow_pos c
    rw [bitCount_le_iff]
    omega
  refine ⟨t, p, bitCount x.val.toNat, ht, hreg, hp, hv, fun hx0 => ?_, fun hx0 => ⟨?_, ?_, ?_⟩, hframe⟩
  · rw [Int.toNat_of_nonpos hx0]
    rfl
  · exact one_le_bitCount (by omega)
  · exact (hlt _).mp le_rfl
  · exact fun c _ hc => (hlt c).mpr hc

/-- Settles O37: each result is within twice the range of the words named, which one word more holds. -/
theorem arithmeticResultLengths : Obligations.ArithmeticResultLengths := by
  intro W hW x y
  have hpos : (0 : Int) < 2 ^ (W * x.words.length) := by positivity
  have := val_range x
  exact ⟨canon_add_length_le hW.pos x y, canon_sub_length_le hW.pos x y, canon_length_le_succ hW.pos (by omega),
    canon_length_le_succ hW.pos (by omega), canon_length_le_succ hW.pos (by omega), canon_mul_length_le hW.pos x y,
    canon_bitlen_length_of_nonpos hW.pos, fun _ => canon_bitlen_length_of_pos hW.pos⟩

/-- Settles O38: a result is too long exactly when it is out of the range of `n` words, in which the operand is. -/
theorem capacityEdges : Obligations.CapacityEdges := by
  intro cfg n hn hcfg hm x hx
  have hpos : (0 : Int) < 2 ^ (cfg.wordBits * n) := by positivity
  have := val_range_of_fits hm hx
  simp only [← Bool.not_eq_false (fits _ _), fits_canon_eq_false_iff hcfg hm, Nat.cast_pow, Nat.cast_ofNat]
  exact ⟨by omega, by omega, by omega, fun _ => mul_two_pow_out_of_range, by omega⟩

/-- Settles O39: the cell without a carry in, then the carry in. -/
theorem adderCellContract : Obligations.AdderCellContract := fun _ hW => addCell_toNat hW.pos

/-- Settles O40: by induction on the positions, and by the table. -/
theorem finalCarryCompletesTheSum : Obligations.FinalCarryCompletesTheSum :=
  fun _ hW => ⟨ripple_total hW.pos, finalCarry_val hW.pos⟩

/-- Settles O41: the words rippled and the final carry make up the sum, and the adder ends with `normalize`. -/
theorem adderAddsEveryPair : Obligations.AdderAddsEveryPair :=
  fun _ hW x y => ⟨addWords_val hW.pos x y, addWords_normalized x y⟩

/-- Settles O42: by induction on the words, the carry going up through the ALL_ONES words. -/
theorem incrementAddsOne : Obligations.IncrementAddsOne :=
  fun _ hW x => ⟨incWords_val hW.pos x, incWords_normalized_of_not_sign hW.pos⟩

/-- Settles O47: each algorithm gives a normalized pair of the law's value. -/
theorem arithmeticWordAlgorithmsMeetTheLaws : Obligations.ArithmeticWordAlgorithmsMeetTheLaws := by
  intro W hW x y
  exact ⟨eq_canon_of_val_eq hW.pos (negWords_normalized hW.pos x) (negWords_val hW.pos x),
    fun hx => eq_canon_of_val_eq hW.pos (incWords_normalized hW.pos hx) (incWords_val hW.pos x),
    eq_canon_of_val_eq hW.pos (decWords_normalized x) (decWords_val hW.pos x),
    eq_canon_of_val_eq hW.pos (addWords_normalized x y) (addWords_val hW.pos x y),
    eq_canon_of_val_eq hW.pos (subWords_normalized x y) (subWords_val hW.pos x y),
    mulWords_eq x y, bitlenWords_eq⟩

/-- Settles O49: both sides are normalized and have the same value, by the laws of the integers. -/
theorem arithmeticLaws : Obligations.ArithmeticLaws := by
  intro W hW x y z hx hy hz
  have hadd := addWords_val hW.pos
  have hmul := mulWords_val hW.pos
  refine ⟨?_, ?_, ?_, ?_, ?_, ?_, ?_, ?_⟩
  · exact eq_of_val_eq_of_normalized (addWords_normalized ..) hx (by simp [hadd])
  · exact eq_of_val_eq_of_normalized (addWords_normalized ..) (nil_normalized false)
      (by simp [hadd, negWords_val hW.pos])
  · exact eq_of_val_eq_of_normalized (addWords_normalized ..) (addWords_normalized ..)
      (by rw [hadd, hadd, Int.add_comm])
  · exact eq_of_val_eq_of_normalized (addWords_normalized ..) (addWords_normalized ..)
      (by rw [hadd, hadd, hadd, hadd, Int.add_assoc])
  · exact eq_of_val_eq_of_normalized (decWords_normalized _) hx
      (by rw [decWords_val hW.pos, incWords_val hW.pos, Int.add_sub_cancel])
  · exact eq_of_val_eq_of_normalized (incWords_normalized hW.pos (decWords_normalized x)) hx
      (by rw [incWords_val hW.pos, decWords_val hW.pos, Int.sub_add_cancel])
  · exact eq_of_val_eq_of_normalized (mulWords_normalized hW.pos ..) (addWords_normalized ..)
      (by rw [hmul, hadd, hadd, hmul, hmul, Int.mul_add])
  · exact eq_of_val_eq_of_normalized (negWords_normalized hW.pos _) hx
      (by rw [negWords_val hW.pos, negWords_val hW.pos, Int.neg_neg])

end Sys2Proof.Machine
end

section
/-! PROOFS, the comparison engine (43_compare.md R89 to R95): the six tests as the signed comparisons, the commands that
write F with them, and the word algorithms of EQ and LT. -/

namespace Sys2Proof.Machine

variable {W : Nat} {s : State}

/-! ### The tests (R89 to R94) -/

@[simp] theorem eqTest_iff (x y : Int) : eqTest x y = true ↔ x = y := decide_eq_true_iff
@[simp] theorem neTest_iff (x y : Int) : neTest x y = true ↔ x ≠ y := by simp [neTest, ← Bool.not_eq_true]
@[simp] theorem ltTest_iff (x y : Int) : ltTest x y = true ↔ x < y := decide_eq_true_iff
@[simp] theorem leTest_iff (x y : Int) : leTest x y = true ↔ x ≤ y := by simp [leTest, ← Bool.not_eq_true]
@[simp] theorem gtTest_iff (x y : Int) : gtTest x y = true ↔ x > y := ltTest_iff y x
@[simp] theorem geTest_iff (x y : Int) : geTest x y = true ↔ x ≥ y := by simp [geTest, ← Bool.not_eq_true]

/-! ### The commands (R28, R58) -/

theorem onlyFlagChanged_setF (s : State) (b : Bool) : OnlyFlagChanged s (s.onUnit (·.setF b)) :=
  ⟨fun _ => rfl, rfl, rfl, rfl, rfl⟩

/-- A CMP command on this hardware completes on all values and writes F with its test of them, and that alone. -/
theorem exec_cmp_writes_f {i : Instr} {test : Int → Int → Bool} {a b : Reg} {x y : Value} {P : Prop}
    (hi : execute i s.toMwu = commandCMP test a b s.toMwu) (he : s.err = false) (hx : s.reg a = some x)
    (hy : s.reg b = some y) (hP : test x.val y.val = true ↔ P) :
    ∃ t, exec i s = .next t ∧ (t.f = true ↔ P) ∧ OnlyFlagChanged s t := by
  have hset := commandCMP_completes test he (indicesInRange_hw_two a b) hx hy
  exact ⟨_, exec_of_execute (g := (·.setF (test x.val y.val))) (hi.trans hset), hP, onlyFlagChanged_setF s _⟩

/-! ### The word algorithms of EQ and LT (R89, R91) -/

/-- XOR is zero exactly on equal integers: those of one sign differ in some bit, those of two differ in sign. -/
theorem xorLaw_eq_zero_iff (x y : Int) : xorLaw x y = 0 ↔ x = y := by
  cases x <;> cases y <;> simp [xorLaw]

/-- A normalized pair is the zero value exactly when its value is 0 (R15). -/
theorem eq_zero_iff_of_normalized {p : BigInt W} (hp : p.Normalized) : p = ⟨false, []⟩ ↔ p.val = 0 :=
  ⟨fun h => h ▸ rfl, fun h => eq_of_val_eq_of_normalized hp (nil_normalized false) h⟩

theorem eqWords_iff (hW : 0 < W) (x y : BigInt W) : eqWords x y = true ↔ x.val = y.val := by
  rw [eqWords, decide_eq_true_iff, eq_zero_iff_of_normalized (xorWords_normalized x y), xorWords_val hW,
    xorLaw_eq_zero_iff]

/-- The difference has the sign of the comparison, and where the short-circuit answers without it, `y < 0 ≤ x`. -/
theorem ltWords_iff (hW : 0 < W) (x y : BigInt W) : ltWords x y = true ↔ x.val < y.val := by
  unfold ltWords
  split
  case isTrue h =>
    obtain ⟨hx, hy⟩ := h
    have hx0 := (val_range_of_not_sign x hx).1
    have hy0 := (sign_eq_true_iff y).mp hy
    simp only [Bool.false_eq_true, false_iff]
    omega
  case isFalse =>
    rw [sign_eq_true_iff, subWords_val hW]
    omega

/-! ### The statements of the comparison engine -/

/-- Settles O33: each command completes without a capacity test and sets F to its test of the two values. -/
theorem comparisonsWriteF : Obligations.ComparisonsWriteF := fun a b _ _ _ he hx hy =>
  ⟨exec_cmp_writes_f (i := .eq a b) rfl he hx hy (eqTest_iff _ _),
    exec_cmp_writes_f (i := .ne a b) rfl he hx hy (neTest_iff _ _),
    exec_cmp_writes_f (i := .lt a b) rfl he hx hy (ltTest_iff _ _),
    exec_cmp_writes_f (i := .le a b) rfl he hx hy (leTest_iff _ _),
    exec_cmp_writes_f (i := .gt a b) rfl he hx hy (gtTest_iff _ _),
    exec_cmp_writes_f (i := .ge a b) rfl he hx hy (geTest_iff _ _)⟩

/-- Settles O34: by O33 the three flags are the three comparisons, of which one holds. -/
theorem exactlyOneComparisonHolds : Obligations.ExactlyOneComparisonHolds := by
  intro a b s x y he hx hy
  obtain ⟨⟨eq, heq, hfeq, -⟩, -, ⟨lt, hlt, hflt, -⟩, -, ⟨gt, hgt, hfgt, -⟩, -⟩ :=
    comparisonsWriteF a b s x y he hx hy
  refine ⟨lt, eq, gt, hlt, heq, hgt, ?_⟩
  simp only [← Bool.not_eq_true, hflt, hfeq, hfgt]
  rcases lt_trichotomy x.val y.val with h | h | h
  · exact .inl (by omega)
  · exact .inr (.inl (by omega))
  · exact .inr (.inr (by omega))

/-- Settles O48: each algorithm's answer and its test stand for the same comparison, and equal values have one
normalized pair. -/
theorem comparisonWordAlgorithmsMeetTheLaws : Obligations.ComparisonWordAlgorithmsMeetTheLaws := by
  intro W hW x y
  refine ⟨?_, ?_, fun hx hy => ?_⟩
  · rw [Bool.eq_iff_iff, eqWords_iff hW.pos, eqTest_iff]
  · rw [Bool.eq_iff_iff, ltWords_iff hW.pos, ltTest_iff]
  · rw [eqWords_iff hW.pos]
    exact ⟨eq_of_val_eq_of_normalized hx hy, congrArg BigInt.val⟩

end Sys2Proof.Machine
end

section
/-! PROOFS, the host interface (44_host_interface.md R96 to R105): the answers of the port, the words of STATUS and VALID
bit by bit, a native pattern read in words of any number that holds it, and the digits of toHex read back. -/

namespace Sys2Proof.Machine

variable {cfg : Config} {u : Mwu cfg} {s : State}

/-! ### Commands through the port (R96, R99) -/

/-- The word of a command does to the unit what the command does, in error too: both do nothing then. -/
theorem executeWord_of_decode {c : BitVec 32} {i : Instr} (hd : decode c = .ok i) (u : Mwu cfg) :
    executeWord c u = execute i u := by
  cases he : u.err
  · exact executeWord_of_ok he hd
  · rw [execute_of_err i he, executeWord, if_pos he]

/-- The step with the word of a command issued. -/
theorem step_of_decode_ok {c : BitVec 32} {i : Instr} {rest : List HostTransaction} (hp : s.pending = .hcmd c :: rest)
    (hd : decode c = .ok i) : step s = exec i (s.answered rest .completion) := by
  rw [step_eq hp, Mwu.perform, executeWord_of_decode hd, exec_eq_execute]
  rfl

theorem decode_of_decodeTableWord {nbits w : Nat} {i : Instr} (h : decodeTableWord nbits w = some i) :
    decode (BitVec.ofNat 32 (w % 2 ^ nbits)) = .ok i := by
  unfold decodeTableWord at h
  cases hd : decode (BitVec.ofNat 32 (w % 2 ^ nbits)) with
  | error e => simp [hd, Except.toOption] at h
  | ok j => simpa [hd, Except.toOption] using h

/-! ### HWRITE and HREAD (R97, R98) -/

theorem hwrite_of_err (he : u.err = true) (i : Reg) (sign : Bool) (words : List (BitVec cfg.wordBits)) :
    hwrite i sign words u = (u, .completion) := if_pos he

/-- An HWRITE with nothing against it writes the normalized pair, the canonical form of its value. -/
theorem hwrite_of_fits (hW : 0 < cfg.wordBits) {i : Reg} (p : BigInt cfg.wordBits) (he : u.err = false)
    (hi : i.val < cfg.numVreg) (hf : fits cfg (canon cfg.wordBits p.val) = true) :
    hwrite i p.sign p.words u = (u.writeReg i p.normalize, .completion) := by
  rw [← normalize_eq_canon hW] at hf
  simp [hwrite, he, hi, hf]

theorem Mwu.onlyRegisterChanged_writeReg (u : Mwu cfg) (d : Nat) (p : BigInt cfg.wordBits) :
    u.OnlyRegisterChanged d (u.writeReg d p) :=
  ⟨fun _ hj => reg_writeReg_ne p hj, rfl, rfl, rfl⟩

theorem hread_of_numVreg_le {i : Reg} (hi : cfg.numVreg ≤ i.val) : hread i u = (u.raise .regRange, .error) :=
  if_neg (not_lt.mpr hi)

theorem hread_of_none {i : Reg} (hi : i.val < cfg.numVreg) (hnone : u.reg i = none) :
    hread i u = (u.raise .unwritten, .error) := by
  simp [hread, hi, hnone]

theorem hread_of_some {i : Reg} {p : BigInt cfg.wordBits} (hp : u.reg i = some p) :
    hread i u = (u, .value p.sign p.words.length p.words) := by
  simp [hread, reg_lt hp, hp]

/-! ### STATUS and VALID (R25, R27, R107) -/

theorem cause_code_le (c : Cause) : c.code ≤ 5 := by cases c <;> decide

theorem statusWord_toNat (u : Mwu cfg) :
    u.statusWord.toNat = u.f.toNat + u.err.toNat * 2 + u.cause.code * 2 ^ 4 := by
  have hf := Bool.toNat_le u.f
  have he := Bool.toNat_le u.err
  have hc := cause_code_le u.cause
  rw [Mwu.statusWord, BitVec.toNat_ofNat, Nat.mod_eq_of_lt (by omega)]

/-- Any field of STATUS, by the numbers STATUS is made of. -/
theorem statusWord_extractLsb'_eq_iff (u : Mwu cfg) (lo n : Nat) (b : BitVec n) :
    u.statusWord.extractLsb' lo n = b ↔
      (u.f.toNat + u.err.toNat * 2 + u.cause.code * 2 ^ 4) / 2 ^ lo % 2 ^ n = b.toNat := by
  rw [← BitVec.toNat_inj, ← bitField_eq_toNat_extractLsb', bitField, statusWord_toNat]

theorem statusWord_getLsbD_one (u : Mwu cfg) : u.statusWord.getLsbD 1 = u.err := by
  have hf := Bool.toNat_le u.f
  rw [← BitVec.testBit_toNat, statusWord_toNat, Nat.testBit_eq_decide_div_mod_eq]
  cases u.err
  · exact decide_eq_false (by rw [Bool.toNat_false]; omega)
  · exact decide_eq_true (by rw [Bool.toNat_true]; omega)

theorem statusWord_cause (u : Mwu cfg) : u.statusWord.extractLsb' 4 4 = BitVec.ofNat 4 u.cause.code := by
  have hf := Bool.toNat_le u.f
  have he := Bool.toNat_le u.err
  rw [statusWord_extractLsb'_eq_iff, BitVec.toNat_ofNat]
  omega

theorem statusWord_reserved (u : Mwu cfg) :
    u.statusWord.extractLsb' 2 2 = 0 ∧ u.statusWord.extractLsb' 8 24 = 0 := by
  have hf := Bool.toNat_le u.f
  have he := Bool.toNat_le u.err
  have hc := cause_code_le u.cause
  rw [statusWord_extractLsb'_eq_iff, statusWord_extractLsb'_eq_iff, zero_toNat, zero_toNat]
  constructor <;> omega

theorem validWord_getLsbD (u : Mwu cfg) {i : Nat} (hi : i < 16) : u.validWord.getLsbD i = (u.reg i).isSome := by
  rw [Mwu.validWord, BitVec.getLsbD_ofFnLE, dif_pos hi]

/-! ### The statements about transactions -/

/-- Settles O3: a step is one transaction with the unit, and the word of a command does to the unit what the command
does. -/
theorem stepRunsTheIssuedCommand : Obligations.StepRunsTheIssuedCommand :=
  ⟨fun _ _ _ _ hp hd => step_of_decode_ok hp hd, fun _ _ _ hp => step_eq hp, fun _ hp => step_of_idle hp,
    fun _ _ _ hd => step_of_decode_ok rfl (decode_of_decodeTableWord hd)⟩

/-- Settles O50: the capacity is tested on the normalized pair, which is the canonical form of the raw pair's value and
has its sign. -/
theorem hwriteStoresTheNormalizedPair : Obligations.HwriteStoresTheNormalizedPair := by
  refine ⟨fun cfg u i sign words hcfg => ⟨fun he => hwrite_of_err he i sign words,
    fun he hi => hwrite_of_out_of_range he hi sign words,
    fun he hi hf => hwrite_of_not_fits hcfg.width.pos ⟨sign, words⟩ he hi hf, fun he hi hf => ?_⟩,
    fun s i sign words rest hp => step_eq hp⟩
  rw [hwrite_of_fits hcfg.width.pos ⟨sign, words⟩ he hi hf]
  exact ⟨rfl, _, reg_writeReg_self _ _ hi, normalize_normalized _, normalize_val _, normalize_sign _,
    u.onlyRegisterChanged_writeReg i _⟩

/-- Settles O51: an HREAD either finds a value or raises, and every index is in range on this hardware. -/
theorem hreadReturnsTheRegister : Obligations.HreadReturnsTheRegister := by
  refine ⟨fun cfg u i => ⟨hread_of_numVreg_le, hread_of_none, fun p hp => hread_of_some hp⟩,
    fun s i rest hpend => ⟨fun hnone => ?_, fun p hp => ?_⟩⟩
  · rw [step_eq hpend, Mwu.perform, hread_of_none i.isLt hnone]
    rfl
  · rw [step_eq hpend, Mwu.perform, hread_of_some hp]
    rfl

/-- Settles O52: STATUS is a sum whose terms stand in separate bits, and VALID is made bit by bit. -/
theorem statusAndValidAreReadBack : Obligations.StatusAndValidAreReadBack := by
  refine fun s rest => ⟨fun hp => ⟨s.statusWord, step_eq hp, ?_⟩,
    fun hp => ⟨s.validWord, step_eq hp, fun i hi => validWord_getLsbD s.toMwu hi⟩⟩
  have hcause {c : Cause} (h : s.cause = c) : s.statusWord.extractLsb' 4 4 = BitVec.ofNat 4 c.code :=
    h ▸ statusWord_cause s.toMwu
  exact ⟨statusWord_getLsbD_zero s.toMwu, statusWord_getLsbD_one s.toMwu, hcause, hcause, hcause, hcause, hcause,
    hcause, statusWord_reserved s.toMwu⟩

end Sys2Proof.Machine

namespace Sys2Proof

variable {W N : Nat}

/-! ### Construction from native integers (R103, R104) -/

/-- A native signed pattern is within the range of any words that have room for its bits. -/
theorem toInt_range_of_le (b : BitVec N) {k : Nat} (h : N ≤ W * k) :
    -(2 ^ (W * k)) ≤ b.toInt ∧ b.toInt < 2 ^ (W * k) := by
  have hpow : (2 : Int) ^ N ≤ 2 ^ (W * k) := pow_le_pow_right₀ (by norm_num) h
  have hpos : (0 : Int) < 2 ^ (W * k) := by positivity
  have hlo := b.le_two_mul_toInt
  have hhi := b.two_mul_toInt_lt
  constructor <;> omega

/-- The chunks of a native signed pattern, in any number of words that has room for its bits, normalize to the canonical
form of its value. -/
theorem fromSigned_eq_normalize (hW : 0 < W) (b : BitVec N) {k : Nat} (h : N ≤ W * k) :
    fromSigned W b = BigInt.normalize
      { sign := b.msb, words := (List.range k).map fun i => BitVec.ofInt W (b.toInt / 2 ^ (W * i)) } := by
  have hval := val_map_ofInt k b.toInt (toInt_range_of_le b h)
  push_cast at hval
  rw [normalize_eq_canon hW, BitVec.msb_eq_toInt, hval]
  rfl

/-- `⌈N / W⌉` words have room for `N` bits. -/
theorem le_mul_ceil (hW : 0 < W) (N : Nat) : N ≤ W * ((N + (W - 1)) / W) := by
  rw [← Nat.add_sub_assoc hW, ← Nat.ceilDiv_eq_add_pred_div]
  exact le_smul_ceilDiv hW

/-- Settles O58: both readings are the chunks of the pattern, one of them or as many as its bits need. -/
theorem nativeConstruction : Obligations.NativeConstruction := by
  intro W hW N b _
  refine ⟨⟨canon_val hW.pos _, canon_normalized hW.pos _, decide_eq_true_iff⟩, fun hN => ?_,
    fromSigned_eq_normalize hW.pos b (le_mul_ceil hW.pos N), ⟨canon_val hW.pos _, canon_normalized hW.pos _, ?_⟩⟩
  · simpa [BitVec.signExtend] using fromSigned_eq_normalize (k := 1) hW.pos b (by omega)
  · exact decide_eq_false (not_lt.mpr (Int.natCast_nonneg b.toNat))

/-! ### toHex (R105) -/

theorem digitValue_hexDigit (c : HexCase) {n : Nat} (hn : n < 16) : Asm.digitValue (hexDigit c n) = some n := by
  revert n
  cases c <;> decide

theorem hexDigit_ne_zero (c : HexCase) {n : Nat} (hn : n < 16) (h0 : n ≠ 0) : hexDigit c n ≠ '0' := by
  intro h
  have hv := digitValue_hexDigit c hn
  rw [h] at hv
  exact h0 (Option.some.inj hv).symm

/-- The characters of a digit: a decimal one, or a letter of the case. -/
def HexCase.HasDigit (c : HexCase) (d : Char) : Prop :=
  ('0' ≤ d ∧ d ≤ '9') ∨ (c = .lower ∧ 'a' ≤ d ∧ d ≤ 'f') ∨ (c = .upper ∧ 'A' ≤ d ∧ d ≤ 'F')

theorem hasDigit_hexDigit (c : HexCase) {n : Nat} (hn : n < 16) : c.HasDigit (hexDigit c n) := by
  unfold HexCase.HasDigit
  revert n
  cases c <;> decide

theorem hasDigit_of_mem_hexDigits {c : HexCase} {k m : Nat} {d : Char} (h : d ∈ hexDigits c k m) : c.HasDigit d := by
  induction k generalizing m with
  | zero => simp [hexDigits] at h
  | succ k ih =>
    rcases List.mem_append.mp h with hd | hd
    · exact ih hd
    · rw [List.mem_singleton.mp hd]
      exact hasDigit_hexDigit c (Nat.mod_lt m (by decide))

/-- The first of `k + 1` digits is the digit of weight `16^k`. -/
theorem head?_hexDigits_succ (c : HexCase) (k m : Nat) :
    (hexDigits c (k + 1) m).head? = some (hexDigit c (m / 16 ^ k % 16)) := by
  induction k generalizing m with
  | zero => simp [hexDigits]
  | succ k ih => rw [hexDigits, List.head?_append, ih, Nat.div_div_eq_div_mul, pow_succ', Option.some_or]

theorem readDigits_append_singleton (base acc : Nat) (ds : List Char) (d : Char) :
    Asm.readDigits base acc (ds ++ [d]) = (Asm.readDigits base acc ds).bind fun n => Asm.readDigits base n [d] := by
  induction ds generalizing acc with
  | nil => rfl
  | cons e es ih =>
    rw [List.cons_append, Asm.readDigits, Asm.readDigits]
    cases Asm.digitValue e with
    | none => rfl
    | some v =>
      by_cases hv : v < base
      · simp only [hv, if_true, ih]
      · simp only [hv, if_false, Option.bind_none]

/-- Digits read back, as many as the number has. -/
theorem readDigits_hexDigits (c : HexCase) {k m : Nat} (h : m < 16 ^ k) :
    Asm.readDigits 16 0 (hexDigits c k m) = some m := by
  induction k generalizing m with
  | zero =>
    rw [pow_zero, Nat.lt_one_iff] at h
    rw [h, hexDigits, Asm.readDigits]
  | succ k ih =>
    have hd : m % 16 < 16 := Nat.mod_lt m (by decide)
    have hq : m / 16 < 16 ^ k := by rw [pow_succ] at h; omega
    rw [hexDigits, readDigits_append_singleton, ih hq, Option.bind_some]
    simp [Asm.readDigits, digitValue_hexDigit c hd, hd, Nat.div_add_mod']

/-- `⌈bits / 4⌉` is the number of hexadecimal digits of a number that is not 0. -/
theorem hexLength_bounds {m : Nat} (hm : 0 < m) :
    ∃ k, (bitCount m + 3) / 4 = k + 1 ∧ 16 ^ k ≤ m ∧ m < 16 ^ (k + 1) := by
  have hbits := Machine.one_le_bitCount hm
  have hlt (k : Nat) : m < 16 ^ k ↔ bitCount m ≤ 4 * k := by norm_num [bitCount_le_iff, pow_mul]
  refine ⟨(bitCount m - 1) / 4, by omega, ?_, ?_⟩
  · rw [← not_lt, hlt]
    omega
  · rw [hlt]
    omega

/-- Settles O59: the number of digits is the least that holds the magnitude, so the first is not 0, and they read back as
the magnitude. -/
theorem toHexRendersTheValue : Obligations.ToHexRendersTheValue := by
  refine fun W _ cfg x => ⟨fun h => if_pos h, fun h => ?_⟩
  obtain ⟨k, hk, hlo, hhi⟩ := hexLength_bounds (Int.natAbs_pos.mpr h)
  have hlead : x.val.natAbs / 16 ^ k % 16 ≠ 0 := by
    have hdigit : x.val.natAbs / 16 ^ k < 16 := Nat.div_lt_of_lt_mul hhi
    rw [Nat.mod_eq_of_lt hdigit]
    exact (Nat.div_pos hlo (by positivity)).ne'
  have hhead := head?_hexDigits_succ cfg.hexCase k x.val.natAbs
  refine ⟨hexDigits cfg.hexCase (k + 1) x.val.natAbs, ?_, ?_, ?_, readDigits_hexDigits _ hhi,
    fun d hd => hasDigit_of_mem_hexDigits hd⟩
  · rw [toHex, if_neg h, hk]
  · exact fun hnil => by simp [hnil] at hhead
  · rw [hhead]
    exact fun h0 => hexDigit_ne_zero _ (Nat.mod_lt _ (by decide)) hlead (Option.some.inj h0)

end Sys2Proof
end

section
/-! PROOFS, the exception rules (60_exceptions.md R106 to R113, 70_reset_and_hazards.md R122): the one effect a
transaction but RESET can have on the unit, and from it what an error leaves and what only RESET undoes. -/

namespace Sys2Proof.Machine

variable {cfg : Config} {u t : Mwu cfg} {s : State}

/-! ### The effects of a transaction (R108, R112) -/

/-- `t` is `u` after at most one effect: an error recorded, a register written, or F written. -/
inductive Mwu.Effect (u : Mwu cfg) : Mwu cfg → Prop
  | nothing : u.Effect u
  | raise {c : Cause} (hc : c ≠ .noError) : u.Effect (u.raise c)
  | writeReg (i : Nat) (p : BigInt cfg.wordBits) : u.Effect (u.writeReg i p)
  | setF (b : Bool) : u.Effect (u.setF b)

theorem effect_execute (i : Instr) (u : Mwu cfg) : u.Effect (execute i u) := by
  rcases execute_cases i u with ⟨-, h⟩ | ⟨-, -, h⟩ | ⟨-, -, -, h⟩ | ⟨-, -, -, -, h⟩ | ⟨d, v, -, -, -, -, -, h⟩ |
    ⟨b, -, -, -, -, h⟩ <;> rw [h]
  · exact .nothing
  · exact .raise (by decide)
  · exact .raise (by decide)
  · exact .raise (by decide)
  · exact .writeReg _ _
  · exact .setF b

theorem effect_executeWord (c : BitVec 32) (u : Mwu cfg) : u.Effect (executeWord c u) := by
  rcases executeWord_cases c u with ⟨-, h⟩ | ⟨e, -, -, h⟩ | ⟨i, -, -, h⟩ <;> rw [h]
  · exact .nothing
  · exact .raise (causeOfDecodeError_ne_noError e)
  · exact effect_execute i u

theorem effect_hwrite (i : Reg) (sign : Bool) (words : List (BitVec cfg.wordBits)) (u : Mwu cfg) :
    u.Effect (hwrite i sign words u).1 := by
  rcases hwrite_cases i sign words u with ⟨-, h⟩ | ⟨-, -, h⟩ | ⟨-, -, -, h⟩ | ⟨-, -, -, h⟩ <;> rw [h]
  · exact .nothing
  · exact .raise (by decide)
  · exact .raise (by decide)
  · exact .writeReg _ _

theorem effect_hread (i : Reg) (u : Mwu cfg) : u.Effect (hread i u).1 := by
  rcases hread_cases i u with ⟨-, h⟩ | ⟨-, -, h⟩ | ⟨p, -, -, h⟩ <;> rw [h]
  · exact .raise (by decide)
  · exact .raise (by decide)
  · exact .nothing

/-- Every transaction but RESET has at most one effect on the unit. -/
theorem effect_perform {tr : Transaction cfg.wordBits} (htr : tr ≠ .reset) (u : Mwu cfg) :
    u.Effect (u.perform tr).1 := by
  cases tr with
  | hwrite i sign words => exact effect_hwrite i sign words u
  | hread i => exact effect_hread i u
  | hcmd c => exact effect_executeWord c u
  | hreadStatus | hreadValid => exact .nothing
  | reset => exact absurd rfl htr

/-- An effect that sets ERR sets CAUSE with it, and does nothing else (R112). -/
theorem Mwu.Effect.precise (h : u.Effect t) (he : u.err = false) (ht : t.err = true) :
    t = u.withError t.cause ∧ t.cause ≠ .noError := by
  cases h with
  | nothing => simp [he] at ht
  | raise hc =>
    rw [raise_of_not_err he]
    exact ⟨rfl, hc⟩
  | writeReg => simp [he] at ht
  | setF => simp [he] at ht

/-- No effect takes a register's value away (R25). -/
theorem Mwu.Effect.isSome_reg (h : u.Effect t) {i : Nat} (hi : (u.reg i).isSome) : (t.reg i).isSome := by
  cases h with
  | nothing => exact hi
  | raise => rwa [reg_raise]
  | writeReg j p =>
    by_cases hij : i = j
    · obtain ⟨q, hq⟩ := Option.isSome_iff_exists.mp hi
      rw [hij, reg_writeReg_self j p (hij ▸ reg_lt hq)]
      rfl
    · rwa [reg_writeReg_ne p hij]
  | setF => exact hi

/-! ### A unit in error (R110) -/

theorem executeWord_of_err (he : u.err = true) (c : BitVec 32) : executeWord c u = u := if_pos he

theorem hread_of_none_of_err (he : u.err = true) {i : Reg} (hi : i.val < cfg.numVreg) (hnone : u.reg i = none) :
    hread i u = (u, .error) := by
  rw [hread_of_none hi hnone, raise_of_err he]

/-- The step with a transaction issued that leaves the unit as it is. -/
theorem step_of_unit_unchanged {tr : HostTransaction} {rest : List HostTransaction} {r : HostReply}
    (hp : s.pending = tr :: rest) (h : s.toMwu.perform tr = (s.toMwu, r)) : step s = .next (s.answered rest r) := by
  rw [step_eq hp, h]
  rfl

/-! ### A unit without a bound (R84, R106) -/

/-- A command of a unit without a bound, with nothing wrong with its indices and sources, writes its destination or F. -/
theorem execute_of_unbounded (hm : cfg.maxWords = .unbounded) (he : u.err = false) {i : Instr}
    (hi : i.wellFormedAt cfg.numVreg = true) (hs : ∀ r ∈ i.sources, (u.reg r).isSome) :
    (∃ (d : Reg) (v : Int), i.dest = some d ∧ d.val < cfg.numVreg ∧
      execute i u = u.writeReg d (canon cfg.wordBits v)) ∨
    ∃ b, i.dest = none ∧ execute i u = u.setF b := by
  have hrange : ∀ r ∈ i.registers, r.val < cfg.numVreg := indicesInRange_eq_true.mp hi
  rcases execute_cases i u with ⟨he', -⟩ | ⟨-, ⟨r, hr, hle⟩, -⟩ | ⟨-, -, ⟨r, hr, hnone⟩, -⟩ |
    ⟨-, -, -, ⟨d, v, -, hf⟩, -⟩ | ⟨d, v, -, -, -, hd, -, h⟩ | ⟨b, -, -, -, hd, h⟩
  · simp [he] at he'
  · exact absurd (hrange r hr) (not_lt.mpr hle)
  · simpa [hnone] using hs r hr
  · simp [fits_of_unbounded _ hm] at hf
  · exact .inl ⟨d, v, hd, hrange d (by simp [Instr.registers, hd]), h⟩
  · exact .inr ⟨b, hd, h⟩

/-! ### The statements of the exception rules -/

/-- Settles O17: an error is one of the effects a transaction can have, of which it has at most one; RESET leaves no
error; and in error nothing but RESET has an effect. -/
theorem errorsArePrecise : Obligations.ErrorsArePrecise := by
  refine ⟨fun i s t h he ht => ?_, fun tr s t h he ht => ?_, fun tr t u he htr h => ?_⟩
  · rw [exec_eq_execute] at h
    cases h
    obtain ⟨hunit, hcause⟩ := (effect_execute i s.toMwu).precise he ht
    exact ⟨onUnit_congr hunit, hcause⟩
  · rw [perform_eq] at h
    cases h
    have htr : tr ≠ .reset := by
      rintro rfl
      cases ht
    obtain ⟨hunit, hcause⟩ := (effect_perform htr s.toMwu).precise he ht
    exact ⟨congrArg (fun s' : State => s'.answer (s.toMwu.perform tr).2) (onUnit_congr hunit), hcause⟩
  · exact (toMwu_of_perform h).trans (perform_of_err he htr)

/-- Settles O53: RESET leaves a unit whose registers are all empty, and every other transaction has at most one effect,
none of them in error. -/
theorem onlyResetClearsTheUnit : Obligations.OnlyResetClearsTheUnit := by
  refine ⟨fun s rest hp => ⟨_, step_eq hp, rfl, rfl, fun i => ?_⟩,
    fun tr s t h htr => ⟨fun he => ?_, fun i hi => ?_⟩⟩
  · exact ⟨_, perform_of_unit (g := (·.withError .unwritten)) (hread_of_unwritten rfl i.isLt (reg_reset _)),
      rfl, rfl, rfl⟩
  · rw [toMwu_of_perform h, perform_of_err he htr]
    exact ⟨he, rfl⟩
  · rw [toMwu_of_perform h]
    exact (effect_perform htr s.toMwu).isSome_reg hi

/-- Settles O11: the first error is recorded in a unit with ERR = 0, and leaves one in which no other is. -/
theorem onlyTheFirstErrorIsRecorded : Obligations.OnlyTheFirstErrorIsRecorded := fun _ u =>
  ⟨fun code he => raise_of_not_err he code, fun code he => raise_of_err he code,
    fun first later => raise_of_err (raise_err u first) later, fun _ he => perform_of_err he (by simp)⟩

/-- Settles O12: each transaction but RESET leaves the unit in error as it is, and RESET leaves ERR = 0. -/
theorem unitInErrorOnlyAnswersReads : Obligations.UnitInErrorOnlyAnswersReads := fun _ _ he =>
  ⟨fun c hp => step_of_unit_unchanged hp (congrArg (·, Reply.completion) (executeWord_of_err he c)),
    fun i sign words hp => step_of_unit_unchanged hp (hwrite_of_err he i sign words),
    fun _ _ hp hv => step_of_unit_unchanged hp (hread_of_some hv),
    fun i hp hnone => step_of_unit_unchanged hp (hread_of_none_of_err he i.isLt hnone),
    fun hp => step_of_unit_unchanged hp rfl, fun hp => step_of_unit_unchanged hp rfl,
    fun hp => ⟨_, step_eq hp, rfl⟩⟩

/-- Settles O18: without a bound every result is within the capacity, so nothing is left that a command could raise. -/
theorem unboundedUnitIsTotal : Obligations.UnboundedUnitIsTotal := by
  refine fun cfg u _ hm he => ⟨fun i hi hs => ?_, fun law d a b x y hd ha hb hx hy => ?_,
    fun law d a x hd ha hx => ?_, fun test a b x y ha hb hx hy => ?_⟩
  · rcases execute_of_unbounded hm he hi hs with ⟨d, v, hd, hlt, h⟩ | ⟨b, hd, h⟩
    · rw [h]
      refine ⟨he, fun d' hd' => ?_⟩
      obtain rfl : d = d' := Option.some.inj (hd.symm.trans hd')
      rw [reg_writeReg_self _ _ hlt]
      rfl
    · rw [h]
      exact ⟨he, fun d hd' => by simp [hd] at hd'⟩
  · rw [commandRRR_completes law he (indicesInRange_eq_true.mpr (by simp [hd, ha, hb])) hx hy (fits_of_unbounded _ hm),
      reg_writeReg_self _ _ hd]
  · rw [commandRR_completes law he (indicesInRange_eq_true.mpr (by simp [hd, ha])) hx (fits_of_unbounded _ hm),
      reg_writeReg_self _ _ hd]
  · rw [commandCMP_completes test he (indicesInRange_eq_true.mpr (by simp [ha, hb])) hx hy]
    rfl

end Sys2Proof.Machine
end
